-- ==== Sys2Proof/Word.lean ====
section
/-! DEFINITION. The words of the block: bytes, samples and 32-bit register words (00_scope.md R13, 10_state.md R21, R25). -/

namespace Sys2Proof

/-- One byte of a payload or datagram buffer (R53 to R55). -/
abbrev Byte := BitVec 8

/-- One `s16` sample in two's complement (R13, R21): its value is `toInt`, its pattern `toNat`. -/
abbrev Sample := BitVec 16

/-- A 32-bit word: a command word, a CSR value, bus data (R25, R61, R100). -/
abbrev Word := BitVec 32

end Sys2Proof
end

