-- ==== Sys2Proof/Config.lean ====
section
/-! DEFINITION. What is fixed when the block is built (00_scope.md section 4) and the values the spec leaves open:
the parameters `N` and `MAX_PAYLOAD`, the uninterpreted codec core, and the free values. A free value is an `opaque`
constant with no body, so nothing can be proved of it. -/

namespace Sys2Proof.Config

/-- `HDR_LEN`, the AudioPacket header length in bytes (R7). -/
def hdrLen : Nat := 12

/-- `BUF_CAP`, the bytes of each payload and datagram buffer (R8). -/
def bufCap : Nat := 512

/-- `LIM_KNEE_RESET`, `floor(0.95 × 32767)` (R9). -/
def limKneeReset : BitVec 15 := 31128#15

/-- The configuration record of R5 and R6: `frameLen` is `N`, `maxPayload` is `MAX_PAYLOAD`. -/
structure Params where
  frameLen   : Nat
  maxPayload : Nat
  deriving DecidableEq, Repr, Inhabited

/-- The defaults of R5 and R6: 320 samples, 256 bytes. -/
def standardParams : Params := ⟨320, 256⟩

/-- `CodecState` (R58), the hidden state of the codec core. DESIGN CHOICE (log 4): its carrier is a memory image of
any length; only the core's uninterpreted functions give the bytes a meaning, so the choice is safe. -/
structure CodecState where
  image : List Byte
  deriving DecidableEq, Repr, Inhabited

/-- `Frame` of R130: exactly `N` samples. -/
abbrev Frame (p : Params) := Fin p.frameLen → Sample

/-- `Bytes(0..MAX_PAYLOAD)` of R130. -/
abbrev Payload (p : Params) := { b : List Byte // b.length ≤ p.maxPayload }

/-- The codec core of R130: an initial state and three functions. `none` is the result `Err`. The types say items 1 to 3
of R131 and nothing more; item 4 (the round trip) is a named hypothesis, `RoundTrips`. -/
structure CodecCore (p : Params) where
  init : CodecState
  enc  : CodecState → Frame p → CodecState × Option (Payload p)
  dec  : CodecState → List Byte → CodecState × Option (Frame p)
  plc  : CodecState → CodecState × Frame p
  deriving Inhabited

/-- R131 item 4 for every decoder state: a non-empty payload that `enc` made decodes without error. The spec does not say
for which decoder states this holds (93_implementation_defined.md U4), so it is only ever a hypothesis. -/
def RoundTrips {p : Params} (core : CodecCore p) : Prop :=
  ∀ (c c' d : CodecState) (f : Frame p) (b : Payload p),
    core.enc c f = (c', some b) → b.val ≠ [] → ((core.dec d b.val).2).isSome

/-- The core the block is built with, for each choice of the parameters (R11, R133: `CODEC_CFG` is folded in).
Uninterpreted (log 5). -/
opaque codecCore (p : Params) : CodecCore p

/-- What sample `i` of frame register `k` holds after the `epoch`-th reset (R261, R262, U1): any value (log 2). -/
opaque powerOnSample (epoch k i : Nat) : Sample

/-- What the buffer byte at host address `a` holds after the `epoch`-th reset (R261, R262, U1): any value (log 2). -/
opaque powerOnByte (epoch a : Nat) : Byte

/-- A draw of the input `time_us` (R250, U3): any value (log 6). -/
opaque freeTimeUs (draw : Nat) : Word

/-- A draw of the input `link_up` (R61, U3): any value (log 6). -/
opaque freeLinkUp (draw : Nat) : Bool

/-- How many host transactions are answered before a pending command completes (R84, R272): any finite number (log 7). -/
opaque freeDelay (draw : Nat) : Nat

/-- Byte `j` of the part of a payload buffer beyond the length that `ENC` wrote (R135, U2): any value (log 12). -/
opaque freeScratchByte (draw j : Nat) : Byte

end Sys2Proof.Config
end

