-- ==== Sys2Proof/Syntax.lean ====
section
/-! DEFINITION. The ten commands of the block (30_encoding.md R102, R104, R110), one constructor per row of the opcode
table. Register indices are names, so every term is a command the block has. -/

namespace Sys2Proof

/-- The four frame registers `F0` to `F3` (R20). -/
inductive FReg where
  | f0 | f1 | f2 | f3
  deriving DecidableEq, Repr

/-- The two payload buffers `P0` and `P1` (R53). -/
inductive PReg where
  | p0 | p1
  deriving DecidableEq, Repr

/-- A command (R110). The arguments stand in the assembler's order, destination first. -/
inductive Instr where
  /-- `ENC Pd, Fa` (R135). -/
  | enc (pd : PReg) (fa : FReg)
  /-- `DEC Fd, Pa`; with `loss` it is `DEC.LOSS Fd`, whose `PX` is free and not read (R107, R137). -/
  | dec (fd : FReg) (pa : PReg) (loss : Bool)
  /-- `MIX Fd, Fa, Fb` (R152). -/
  | mix (fd fa fb : FReg)
  /-- `LIMIT Fd, Fa` (R162). -/
  | limit (fd fa : FReg)
  /-- `SIDETONE Fd, Fmic, Fin, gate` (R172): `Fmic` is field `FA`, `Fin` field `FB`, `gate` is `M0`. -/
  | sidetone (fd fmic fin : FReg) (gate : Bool)
  /-- `RMS Fa` (R181). -/
  | rms (fa : FReg)
  /-- `PKT_INIT` (R190). -/
  | pktInit
  /-- `PKT_SEND Pa, ptt, call` (R195): `ptt` is `M0`, `call` is `M1`. -/
  | pktSend (pa : PReg) (ptt call : Bool)
  /-- `PKT_RECV Pd` (R203). -/
  | pktRecv (pd : PReg)
  /-- `STATS_CLR` (R215). -/
  | statsClr
  deriving DecidableEq, Repr

end Sys2Proof
end

