-- ==== Sys2Proof/WellFormed.lean ====
section
/-! DEFINITION. What is well formed. A term of `Instr` always is: its register indices are names. What can be ill formed is
a command WORD (the must-be-zero columns of 30_encoding.md R102, written here field by field and apart from the decoder's
masks) and a configuration record (the bounds of 00_scope.md R5 and R6). -/

namespace Sys2Proof

/-- The fields of format `C` that a command uses (R102, third column); `OPC` is used by every command. -/
structure UsedFields where
  fd : Bool
  fa : Bool
  fb : Bool
  m0 : Bool
  m1 : Bool
  px : Bool
  deriving DecidableEq, Repr

/-- R102: the fields used by the command with this opcode; `none` for an opcode that is not in the table. -/
def usedFields (opc : BitVec 8) : Option UsedFields :=
  match opc.toNat with
  | 0x10 => some ⟨false, true,  false, false, false, true⟩
  | 0x11 => some ⟨true,  false, false, true,  false, true⟩
  | 0x20 => some ⟨true,  true,  true,  false, false, false⟩
  | 0x21 => some ⟨true,  true,  false, false, false, false⟩
  | 0x22 => some ⟨true,  true,  true,  true,  false, false⟩
  | 0x23 => some ⟨false, true,  false, false, false, false⟩
  | 0x30 => some ⟨false, false, false, false, false, false⟩
  | 0x31 => some ⟨false, false, false, true,  true,  true⟩
  | 0x32 => some ⟨false, false, false, false, false, true⟩
  | 0x33 => some ⟨false, false, false, false, false, false⟩
  | _ => none

/-- R102: a command word is well formed when its opcode is in the table, bits 15:14, 19:18 and 31:21 are zero, and every
field the command does not use is zero. -/
def wordWellFormed (w : Word) : Bool :=
  match usedFields (w.extractLsb' 0 8) with
  | none => false
  | some u =>
    (w.extractLsb' 14 2 == 0) && (w.extractLsb' 18 2 == 0) && (w.extractLsb' 21 11 == 0)
      && (u.fd || w.extractLsb' 8 2 == 0) && (u.fa || w.extractLsb' 10 2 == 0) && (u.fb || w.extractLsb' 12 2 == 0)
      && (u.m0 || w.extractLsb' 16 1 == 0) && (u.m1 || w.extractLsb' 17 1 == 0) && (u.px || w.extractLsb' 20 1 == 0)

/-- R5 and R6: `1 ≤ N ≤ 1024` and `1 ≤ MAX_PAYLOAD ≤ 500`. -/
def paramsWellFormed (p : Config.Params) : Bool :=
  decide (1 ≤ p.frameLen) && decide (p.frameLen ≤ 1024) && decide (1 ≤ p.maxPayload) && decide (p.maxPayload ≤ 500)

end Sys2Proof
end

