-- ==== Sys2Proof/Decode.lean ====
section
/-! DEFINITION. The decoder of 30_encoding.md R104 and R105 (rows of match and mask), total on every word and rejecting by
name (R106); the byte form of a command word; and the encoder, written from format `C` (R101). -/

namespace Sys2Proof

/-- Why a word is no command (R106), and, for a byte string, that it holds no whole word. -/
inductive DecodeError where
  /-- The opcode is not in the table. -/
  | unknownOpcode
  /-- The opcode is in the table and a must-be-zero bit is set. -/
  | mustBeZero
  /-- Fewer than four bytes were given (R100: every command is one 32-bit word). -/
  | truncated
  deriving DecidableEq, Repr

/-- A row of the opcode map (R104). -/
structure OpcodeRow where
  mnemonic : String
  mtch     : Word
  mask     : Word
  deriving DecidableEq, Repr

/-- "A word `W` is the command of a row exactly when `(W and mask) = match`" (R104). -/
def OpcodeRow.hits (r : OpcodeRow) (w : Word) : Bool := w &&& r.mask == r.mtch

def rowEnc      : OpcodeRow := ⟨"ENC",       0x00000010, 0xFFEFF3FF⟩
def rowDec      : OpcodeRow := ⟨"DEC",       0x00000011, 0xFFEEFCFF⟩
def rowMix      : OpcodeRow := ⟨"MIX",       0x00000020, 0xFFFFC0FF⟩
def rowLimit    : OpcodeRow := ⟨"LIMIT",     0x00000021, 0xFFFFF0FF⟩
def rowSidetone : OpcodeRow := ⟨"SIDETONE",  0x00000022, 0xFFFEC0FF⟩
def rowRms      : OpcodeRow := ⟨"RMS",       0x00000023, 0xFFFFF3FF⟩
def rowPktInit  : OpcodeRow := ⟨"PKT_INIT",  0x00000030, 0xFFFFFFFF⟩
def rowPktSend  : OpcodeRow := ⟨"PKT_SEND",  0x00000031, 0xFFECFFFF⟩
def rowPktRecv  : OpcodeRow := ⟨"PKT_RECV",  0x00000032, 0xFFEFFFFF⟩
def rowStatsClr : OpcodeRow := ⟨"STATS_CLR", 0x00000033, 0xFFFFFFFF⟩

/-- The opcode map of R104. -/
def opcodeTable : List OpcodeRow :=
  [rowEnc, rowDec, rowMix, rowLimit, rowSidetone, rowRms, rowPktInit, rowPktSend, rowPktRecv, rowStatsClr]

/-- The frame register with a 2-bit index (R103). -/
def fregOfBits (b : BitVec 2) : FReg :=
  if b = 0 then .f0 else if b = 1 then .f1 else if b = 2 then .f2 else .f3

/-- The index of a frame register (R101). -/
def fregBits : FReg → BitVec 2
  | .f0 => 0
  | .f1 => 1
  | .f2 => 2
  | .f3 => 3

/-- The payload buffer with a 1-bit index (R103). -/
def pregOfBit (b : Bool) : PReg := if b then .p1 else .p0

/-- The index of a payload buffer (R101). -/
def pregBit : PReg → Bool
  | .p0 => false
  | .p1 => true

/-- Field `FD`, bits 9:8 (R101). -/
def fieldFD (w : Word) : FReg := fregOfBits (w.extractLsb' 8 2)
/-- Field `FA`, bits 11:10 (R101). -/
def fieldFA (w : Word) : FReg := fregOfBits (w.extractLsb' 10 2)
/-- Field `FB`, bits 13:12 (R101). -/
def fieldFB (w : Word) : FReg := fregOfBits (w.extractLsb' 12 2)
/-- Field `M0`, bit 16 (R101). -/
def fieldM0 (w : Word) : Bool := w.getLsbD 16
/-- Field `M1`, bit 17 (R101). -/
def fieldM1 (w : Word) : Bool := w.getLsbD 17
/-- Field `PX`, bit 20 (R101). -/
def fieldPX (w : Word) : PReg := pregOfBit (w.getLsbD 20)

/-- The name of a rejection: R106 gives the two ways a word can match no row. -/
def rejection (w : Word) : DecodeError :=
  if (usedFields (w.extractLsb' 0 8)).isSome then .mustBeZero else .unknownOpcode

/-- R105: the word is tested against the ten rows of R104; a word that matches none is illegal (R106). -/
def decode (w : Word) : Except DecodeError Instr :=
  if rowEnc.hits w then .ok (.enc (fieldPX w) (fieldFA w))
  else if rowDec.hits w then .ok (.dec (fieldFD w) (fieldPX w) (fieldM0 w))
  else if rowMix.hits w then .ok (.mix (fieldFD w) (fieldFA w) (fieldFB w))
  else if rowLimit.hits w then .ok (.limit (fieldFD w) (fieldFA w))
  else if rowSidetone.hits w then .ok (.sidetone (fieldFD w) (fieldFA w) (fieldFB w) (fieldM0 w))
  else if rowRms.hits w then .ok (.rms (fieldFA w))
  else if rowPktInit.hits w then .ok .pktInit
  else if rowPktSend.hits w then .ok (.pktSend (fieldPX w) (fieldM0 w) (fieldM1 w))
  else if rowPktRecv.hits w then .ok (.pktRecv (fieldPX w))
  else if rowStatsClr.hits w then .ok .statsClr
  else .error (rejection w)

/-- A command given as bytes: its word is the first four, least significant first (R74, R100). DEDUCED (log 16): the block
never sees a command as bytes, a host that holds one in its memory does. -/
def decodeBytes : List Byte → Except DecodeError Instr
  | b0 :: b1 :: b2 :: b3 :: _ => decode (b3 ++ b2 ++ b1 ++ b0)
  | _ => .error .truncated

/-- The four bytes of a word, least significant first (R74). -/
def wordBytes (w : Word) : List Byte :=
  [w.extractLsb' 0 8, w.extractLsb' 8 8, w.extractLsb' 16 8, w.extractLsb' 24 8]

/-- The instruction the decoder reads from the opcode table's word `w` of `nbits` bits, the bits above them zero. -/
def decodeTableWord (nbits w : Nat) : Option Instr :=
  match decodeBytes (wordBytes (BitVec.ofNat 32 (w % 2 ^ nbits))) with
  | .ok i => some i
  | .error _ => none

/-- Format `C` of R101, from bit 31 down: zeros, `PX`, zeros, `M1`, `M0`, zeros, `FB`, `FA`, `FD`, `OPC`. -/
def commandWord (opc : BitVec 8) (fd fa fb : BitVec 2) (m0 m1 px : Bool) : Word :=
  0#11 ++ BitVec.ofBool px ++ 0#2 ++ BitVec.ofBool m1 ++ BitVec.ofBool m0 ++ 0#2 ++ fb ++ fa ++ fd ++ opc

/-- The word of a command: the opcode of R104, the fields of R102 and R110, and zero in every field it does not use. -/
def encode : Instr → Word
  | .enc pd fa            => commandWord 0x10 0 (fregBits fa) 0 false false (pregBit pd)
  | .dec fd pa loss       => commandWord 0x11 (fregBits fd) 0 0 loss false (pregBit pa)
  | .mix fd fa fb         => commandWord 0x20 (fregBits fd) (fregBits fa) (fregBits fb) false false false
  | .limit fd fa          => commandWord 0x21 (fregBits fd) (fregBits fa) 0 false false false
  | .sidetone fd fm fi g  => commandWord 0x22 (fregBits fd) (fregBits fm) (fregBits fi) g false false
  | .rms fa               => commandWord 0x23 0 (fregBits fa) 0 false false false
  | .pktInit              => commandWord 0x30 0 0 0 false false false
  | .pktSend pa ptt call  => commandWord 0x31 0 0 0 ptt call (pregBit pa)
  | .pktRecv pd           => commandWord 0x32 0 0 0 false false (pregBit pd)
  | .statsClr             => commandWord 0x33 0 0 0 false false false

/-- The row of the opcode map that a command belongs to (R104). -/
def rowOf : Instr → OpcodeRow
  | .enc ..      => rowEnc
  | .dec ..      => rowDec
  | .mix ..      => rowMix
  | .limit ..    => rowLimit
  | .sidetone .. => rowSidetone
  | .rms ..      => rowRms
  | .pktInit     => rowPktInit
  | .pktSend ..  => rowPktSend
  | .pktRecv ..  => rowPktRecv
  | .statsClr    => rowStatsClr

/-- The assembler's name of a frame register (R110). -/
def fregName : FReg → String
  | .f0 => "F0"
  | .f1 => "F1"
  | .f2 => "F2"
  | .f3 => "F3"

/-- The assembler's name of a payload buffer (R110). -/
def pregName : PReg → String
  | .p0 => "P0"
  | .p1 => "P1"

/-- A flag operand, `0` or `1` (R110). -/
def flagName (b : Bool) : String := if b then "1" else "0"

/-- The assembler line of a command (R110); both spellings of a lost frame print as `DEC.LOSS` (R107). -/
def assemblerLine : Instr → String
  | .enc pd fa           => "ENC " ++ pregName pd ++ ", " ++ fregName fa
  | .dec fd _ true       => "DEC.LOSS " ++ fregName fd
  | .dec fd pa false     => "DEC " ++ fregName fd ++ ", " ++ pregName pa
  | .mix fd fa fb        => "MIX " ++ fregName fd ++ ", " ++ fregName fa ++ ", " ++ fregName fb
  | .limit fd fa         => "LIMIT " ++ fregName fd ++ ", " ++ fregName fa
  | .sidetone fd fm fi g => "SIDETONE " ++ fregName fd ++ ", " ++ fregName fm ++ ", " ++ fregName fi ++ ", " ++ flagName g
  | .rms fa              => "RMS " ++ fregName fa
  | .pktInit             => "PKT_INIT"
  | .pktSend pa ptt call => "PKT_SEND " ++ pregName pa ++ ", " ++ flagName ptt ++ ", " ++ flagName call
  | .pktRecv pd          => "PKT_RECV " ++ pregName pd
  | .statsClr            => "STATS_CLR"

end Sys2Proof
end

