-- ==== Sys2Proof/Machine/State.lean ====
section
/-! DEFINITION. The state of the block (10_state.md), of the host that drives it and of the inputs it samples, as plain
data; the reasons a step could stop; the state after reset (70_reset_and_hazards.md R261). -/

namespace Sys2Proof.Machine

/-- The completion codes of 60_exceptions.md R230; `STATUS.ERR` holds one of them and nothing else. -/
inductive CompletionCode where
  | ok | illegal | tooBig | short | badSize | codec | link
  deriving DecidableEq, Repr

/-- The four frame registers `F0` to `F3` (R20): sample `i` of a register is element `i` of its list. -/
structure Frames where
  f0 : List Sample
  f1 : List Sample
  f2 : List Sample
  f3 : List Sample
  deriving DecidableEq, Repr

/-- The bytes of `P0`, `P1`, `TXD` and `RXD` that were written since reset, each at its host address (R72), addresses rising.
An address that is not listed holds the byte the reset left there (log 2). -/
abbrev Memory := List Host.Cell

/-- The canonical form of a memory: addresses strictly rising. An unlisted address reads as "nothing written", which no
entry can equal, so equal memories are equal lists. -/
abbrev Memory.wf (m : Memory) : Prop := m.Pairwise (fun c d => c.1 < d.1)

/-- The control and status registers of R25, field by field; reserved bits read as zero and are not stored (R49). -/
structure Csrs where
  /-- `STATUS.BUSY` (R27). -/
  busy      : Bool
  /-- `STATUS.ERR` (R27). -/
  err       : CompletionCode
  /-- `ERRFLAGS` bits 6:1 (R28); element `c − 1` is the sticky bit of code `c`. -/
  errFlags  : BitVec 6
  /-- `CFG.LIM_EN` (R29). -/
  limEn     : Bool
  /-- `LIM_KNEE.T` (R30). -/
  knee      : BitVec 15
  /-- `MIX_GAIN.GAIN_A` (R31). -/
  gainA     : BitVec 16
  /-- `MIX_GAIN.GAIN_B` (R31). -/
  gainB     : BitVec 16
  /-- `ST_LEVEL.LEVEL` (R32). -/
  level     : BitVec 16
  /-- `RMS_OUT` bits 15:0 (R33). -/
  rmsOut    : BitVec 16
  /-- `TX_SEQ` (R34). -/
  txSeq     : Word
  /-- `RX_LAST_SEQ` (R35). -/
  rxLastSeq : Word
  /-- `RX_INFO.RX_PTT` (R36). -/
  rxPtt     : Bool
  /-- `RX_INFO.RX_CALL` (R36). -/
  rxCall    : Bool
  /-- `RX_INFO.HAVE_LAST` (R36). -/
  haveLast  : Bool
  /-- `PKTS_SENT` (R37). -/
  pktsSent  : Word
  /-- `PKTS_RECV` (R38). -/
  pktsRecv  : Word
  /-- `PKTS_LOST` (R39). -/
  pktsLost  : Word
  /-- `BYTES_SENT` (R40). -/
  bytesSent : Word
  /-- `BYTES_RECV` (R41). -/
  bytesRecv : Word
  /-- `LOSS_PCT` bits 15:0 (R42). -/
  lossPct   : BitVec 16
  /-- `TX_FAIL_CNT` (R43). -/
  txFailCnt : Word
  /-- `ENC_ERR_CNT` (R44). -/
  encErrCnt : Word
  /-- `DEC_ERR_CNT` (R45). -/
  decErrCnt : Word
  /-- `PLEN0` bits 9:0 (R46). -/
  plen0     : BitVec 10
  /-- `PLEN1` bits 9:0 (R46). -/
  plen1     : BitVec 10
  /-- `TXD_LEN` bits 9:0 (R47). -/
  txdLen    : BitVec 10
  /-- `RXD_LEN` bits 9:0 (R48). -/
  rxdLen    : BitVec 10
  deriving DecidableEq, Repr

/-- What the host does next: a bus transaction on `haddr`, `hsize` and `hwdata` (R61, R118), the pseudo-instruction `WAIT`
(R119), or one assertion of the input `rst` (R260). Whole transactions, no cycles (log 14). -/
inductive BusOp where
  | read  (addr : BitVec 16) (hsize : BitVec 2)
  | write (addr : BitVec 16) (hsize : BitVec 2) (data : Word)
  | wait
  | rst
  deriving DecidableEq, Repr

/-- The host (R24, R270): the transactions of its program still to come, and its position in the program. -/
structure HostSide where
  program : List BusOp
  pos     : Nat
  deriving DecidableEq, Repr

/-- What the input ports `time_us` and `link_up` show at one moment (R61). -/
structure PortSample where
  timeUs : Word
  linkUp : Bool
  deriving DecidableEq, Repr

/-- The environment's draws (R270). A draw is the head of its list while the list lasts, and free after that; `drawn`
counts the draws so far and `epoch` the resets, so that every free value is a fresh one (log 2, 6, 7). -/
structure Env where
  ports  : List PortSample
  delays : List Nat
  drawn  : Nat
  epoch  : Nat
  deriving DecidableEq, Repr

/-- What an observer outside the block sees (92_eei_decisions.md D35): the answers on `herr` and `hrdata`, and the pulses of
`tx_strobe`, with the datagram it announces (R85), and of `rx_strobe` (log 9). -/
inductive Event where
  | readAnswer  (herr : Bool) (hrdata : Word)
  | writeAnswer (herr : Bool)
  | txStrobe    (datagram : List Byte)
  | rxStrobe
  deriving DecidableEq, Repr

/-- The whole machine. `params` never changes (log 1); `frames`, `mem`, `csr`, `codecState` and `cmdReg` are the block's
state (R20, R25, R53 to R55, R58, R59; R60: there is no other); `delay`, `host`, `env` and `log` are the model's own: how many
host transactions come before the pending command completes, the host, the draws, and what was observed (newest first). -/
structure State where
  params     : Config.Params
  frames     : Frames
  mem        : Memory
  csr        : Csrs
  codecState : Config.CodecState
  cmdReg     : Word
  delay      : Nat
  host       : HostSide
  env        : Env
  log        : List Event
  deriving DecidableEq, Repr

/-- Reasons a step could stop with a fault. There are none: the block "has no fatal outcome and no state in which it stops
accepting commands" (R231), an error is a completion code (R244) and a bus access that is not admitted is an answer (R233).
Safe: the model stops nowhere. -/
inductive Fault where
  deriving DecidableEq, Repr

/-- Reasons a step could refuse to give a meaning. -/
inductive Refusal where
  /-- An instruction the model gives no meaning. Raised by no arm of `exec`: every command is modelled. Safe. -/
  | notModelled (mnemonic : String)
  deriving DecidableEq, Repr

/-- A frame register right after the `epoch`-th reset: `N` samples of any value (R261, U1, log 2). -/
def powerOnFrame (p : Config.Params) (epoch k : Nat) : List Sample :=
  (List.range p.frameLen).map (Config.powerOnSample epoch k)

/-- The CSRs after reset (R25, R261). -/
def Csrs.reset : Csrs where
  busy      := false
  err       := .ok
  errFlags  := 0
  limEn     := true
  knee      := Config.limKneeReset
  gainA     := 0x8000
  gainB     := 0x8000
  level     := 0
  rmsOut    := 0
  txSeq     := 0
  rxLastSeq := 0
  rxPtt     := false
  rxCall    := false
  haveLast  := false
  pktsSent  := 0
  pktsRecv  := 0
  pktsLost  := 0
  bytesSent := 0
  bytesRecv := 0
  lossPct   := 0
  txFailCnt := 0
  encErrCnt := 0
  decErrCnt := 0
  plen0     := 0
  plen1     := 0
  txdLen    := 0
  rxdLen    := 0

/-- The state after the `epoch`-th reset of a block built with `p` (R261), with nothing for the host to do. `CMDREG` is
"irrelevant" there; DESIGN CHOICE 0 (log 3). The model's own counters start at 0 (log 15). -/
def State.resetWith (p : Config.Params) (epoch : Nat) : State where
  params     := p
  frames     := ⟨powerOnFrame p epoch 0, powerOnFrame p epoch 1, powerOnFrame p epoch 2, powerOnFrame p epoch 3⟩
  mem        := []
  csr        := Csrs.reset
  codecState := (Config.codecCore p).init
  cmdReg     := 0
  delay      := 0
  host       := ⟨[], 0⟩
  env        := ⟨[], [], 0, epoch⟩
  log        := []

/-- The machine right after reset, with the spec's default parameters (R5, R6; log 1). -/
def State.reset : State := State.resetWith Config.standardParams 0

end Sys2Proof.Machine
end

