-- ==== Sys2Proof/Machine/Flags.lean ====
section
/-! DEFINITION. The status words: completion codes (60_exceptions.md R230), `STATUS`, the sticky error flags and `RX_INFO`
(10_state.md R27, R28, R36). -/

namespace Sys2Proof.Machine

/-- The number of a completion code (R230). -/
def codeNumber : CompletionCode → Nat
  | .ok      => 0
  | .illegal => 1
  | .tooBig  => 2
  | .short   => 3
  | .badSize => 4
  | .codec   => 5
  | .link    => 6

/-- The sticky flag of a completion code within `ERRFLAGS[6:1]`; completion with `OK` sets none (R28). -/
def errFlagOf (c : CompletionCode) : BitVec 6 :=
  match codeNumber c with
  | 0 => 0
  | n + 1 => 1#6 <<< n

/-- The value of `STATUS`: `BUSY` in bit 0, `ERR` in bits 7:4, zeros elsewhere (R27). -/
def statusWord (c : Csrs) : Word := 0#24 ++ BitVec.ofNat 4 (codeNumber c.err) ++ 0#3 ++ BitVec.ofBool c.busy

/-- The value of `ERRFLAGS`: bit 0 and bits 31:7 read as zero (R28). -/
def errFlagsWord (c : Csrs) : Word := 0#25 ++ c.errFlags ++ 0#1

/-- `ERRFLAGS` after the host writes `v`: the bits written as 1 are cleared, the others stay (R28). This is the whole of the
host's recovery from an error: there is no return instruction (R247). -/
def errFlagsCleared (f : BitVec 6) (v : Word) : BitVec 6 := f &&& ~~~(v.extractLsb' 1 6)

/-- The value of `RX_INFO`: `RX_PTT` in bit 0, `RX_CALL` in bit 1, `HAVE_LAST` in bit 8 (R36). -/
def rxInfoWord (c : Csrs) : Word :=
  0#23 ++ BitVec.ofBool c.haveLast ++ 0#6 ++ BitVec.ofBool c.rxCall ++ BitVec.ofBool c.rxPtt

end Sys2Proof.Machine
end

