-- ==== Sys2Proof/Machine/Ops.lean ====
section
/-! DEFINITION. The shared operations: integer arithmetic (00_scope.md R15 to R17), byte order (R18), the byte memory, the
frame registers, the environment's draws, and the two ways a command ends (R19, 60_exceptions.md R244). -/

namespace Sys2Proof.Machine

open Sys2Proof.Config (Frame Params)

/-- `trunc0(p, q)` of R16: the quotient rounded toward zero. -/
def trunc0 (p : Int) (q : Nat) : Int := if 0 ≤ p then p / q else -((-p) / q)

/-- `sat16` of R17. -/
def sat16 (v : Int) : Int := max (-32768) (min 32767 v)

/-- The pattern of a sample value (R13). -/
def toSample (v : Int) : Sample := BitVec.ofInt 16 v

/-- The binary digits of a square root from digit `b − 1` down: each is set when the square still fits under `m`. -/
def isqrtFrom : Nat → Nat → Nat → Nat
  | 0, _, r => r
  | b + 1, m, r => isqrtFrom b m (if (r + 2 ^ b) * (r + 2 ^ b) ≤ m then r + 2 ^ b else r)

/-- `isqrt` of R17: the largest `r` with `r × r ≤ m`. -/
def isqrt (m : Nat) : Nat := isqrtFrom (m.log2 / 2 + 1) m 0

/-- `LE16` of R18. -/
def le16 (v : BitVec 16) : List Byte := [v.extractLsb' 0 8, v.extractLsb' 8 8]

/-- `LE32` of R18. -/
def le32 (v : Word) : List Byte := [v.extractLsb' 0 8, v.extractLsb' 8 8, v.extractLsb' 16 8, v.extractLsb' 24 8]

/-- `U16LE` of R18. -/
def u16le (b0 b1 : Byte) : BitVec 16 := b1 ++ b0

/-- `U32LE` of R18. -/
def u32le (b0 b1 b2 b3 : Byte) : Word := b3 ++ b2 ++ b1 ++ b0

/-- The little-endian value of a byte sequence: the byte at the lower address is the less significant (R74, R75). -/
def leValue : List Byte → Nat
  | [] => 0
  | b :: bs => b.toNat + 256 * leValue bs

/-- The first `n` bytes of a bus word, least significant first (R61, R89). -/
def leBytes : Nat → Nat → List Byte
  | 0, _ => []
  | n + 1, v => BitVec.ofNat 8 v :: leBytes n (v / 256)

/-- The cells of a byte sequence laid down from address `a` up. -/
def cellsAt : Nat → List Byte → Memory
  | _, [] => []
  | a, b :: bs => (a, b) :: cellsAt (a + 1) bs

/-- The byte written at `a`, if one was written since reset. -/
def Memory.read? : Memory → Nat → Option Byte
  | [], _ => none
  | c :: m, a => if c.1 = a then some c.2 else Memory.read? m a

/-- The memory with `bs` written from address `a` up: what lies below, the new cells, what lies above. -/
def Memory.write (m : Memory) (a : Nat) (bs : List Byte) : Memory :=
  m.filter (fun c => c.1 < a) ++ cellsAt a bs ++ m.filter (fun c => a + bs.length ≤ c.1)

/-- The buffer byte at host address `a` (R72): the byte written there, or what the reset left (R261, R262). -/
def State.byteAt (s : State) (a : Nat) : Byte := (s.mem.read? a).getD (Config.powerOnByte s.env.epoch a)

/-- The `n` buffer bytes from host address `a` up. -/
def State.bytesAt (s : State) (a n : Nat) : List Byte := (List.range n).map (fun j => s.byteAt (a + j))

/-- `bs` written from host address `a` up. -/
def State.writeBytes (s : State) (a : Nat) (bs : List Byte) : State := { s with mem := s.mem.write a bs }

/-- The samples of a frame register (R14, R20). -/
def Frames.get (f : Frames) : FReg → List Sample
  | .f0 => f.f0
  | .f1 => f.f1
  | .f2 => f.f2
  | .f3 => f.f3

/-- A frame register replaced; the four never alias (R22). -/
def Frames.set (f : Frames) (k : FReg) (x : List Sample) : Frames :=
  match k with
  | .f0 => { f with f0 := x }
  | .f1 => { f with f1 := x }
  | .f2 => { f with f2 := x }
  | .f3 => { f with f3 := x }

/-- `F[k][i]` (R14). The 0 stands only for an element no frame register has (log 13). -/
def State.sample (s : State) (k : FReg) (i : Nat) : Sample := (s.frames.get k)[i]?.getD 0

/-- `F[k][0..N−1]` as a whole (R14). -/
def State.frame (s : State) (k : FReg) : Frame s.params := fun i => s.sample k i

/-- `F[k][0..N−1] <- f`. -/
def State.setFrame (s : State) (k : FReg) (f : Frame s.params) : State :=
  { s with frames := s.frames.set k (List.ofFn f) }

/-- `F[k][i] <- v`. -/
def State.setSample (s : State) (k : FReg) (i : Nat) (v : Sample) : State :=
  { s with frames := s.frames.set k ((s.frames.get k).set i v) }

/-- `input(time_us)` (R19, R250): the next draw. -/
def State.inputTimeUs (s : State) : Word :=
  match s.env.ports with
  | [] => Config.freeTimeUs s.env.drawn
  | p :: _ => p.timeUs

/-- `input(link_up)` (R19, R61): the next draw. -/
def State.inputLinkUp (s : State) : Bool :=
  match s.env.ports with
  | [] => Config.freeLinkUp s.env.drawn
  | p :: _ => p.linkUp

/-- The state after the two input ports were sampled: the next sampling is another draw (U3). -/
def State.portsSampled (s : State) : State :=
  { s with env := { s.env with ports := s.env.ports.tail, drawn := s.env.drawn + 1 } }

/-- How many host transactions will come before the command now starting completes (R84, R272). -/
def State.nextDelay (s : State) : Nat :=
  match s.env.delays with
  | [] => Config.freeDelay s.env.drawn
  | d :: _ => d

/-- The state after a free value other than a port or a delay was drawn. -/
def State.drawTaken (s : State) : State := { s with env := { s.env with drawn := s.env.drawn + 1 } }

/-- An event is observed (R19 `emit`, R85). -/
def State.emit (s : State) (e : Event) : State := { s with log := e :: s.log }

/-- `done` of R19: the command ends with `OK` and the block is ready for the next (R271). -/
def State.done (s : State) : State := { s with csr := { s.csr with busy := false, err := .ok } }

/-- Error completion, `raise E_X` (R244): the code in `STATUS.ERR`, its sticky bit in `ERRFLAGS`, `BUSY` cleared. "Nothing is
saved, no mode changes, control goes nowhere": this is all the block has of an exception. -/
def State.raise (s : State) (c : CompletionCode) : State :=
  { s with csr := { s.csr with busy := false, err := c, errFlags := s.csr.errFlags ||| errFlagOf c } }

/-- The host's write of `CMD` while the block is idle (R26): the word is captured and the command is pending. -/
def State.startCommand (s : State) (w : Word) : State :=
  { s with
    cmdReg := w
    csr := { s.csr with busy := true }
    delay := s.nextDelay
    env := { s.env with delays := s.env.delays.tail, drawn := s.env.drawn + 1 } }

/-- The state while `rst` is asserted (R260): the reset state; a pending command is abandoned. The configuration, the host,
the environment and what was observed are outside the block and stay (log 11). -/
def State.resetBlock (s : State) : State :=
  { State.resetWith s.params (s.env.epoch + 1) with
    host := s.host
    env := { s.env with epoch := s.env.epoch + 1 }
    log := s.log }

end Sys2Proof.Machine
end

