-- ==== Sys2Proof/Machine/Operands.lean ====
section
/-! DEFINITION. The operand forms (30_encoding.md R103): frame registers and payload buffers by index, and the operands that
are CSR fields (the two gains, the level, the knee, the lengths). -/

namespace Sys2Proof.Machine

/-- The base address of payload buffer `P[k]` (R72). -/
def payloadBase : PReg → Nat
  | .p0 => 0x4000
  | .p1 => 0x4200

/-- The base address of `TXD` (R72). -/
def txdBase : Nat := 0x4400

/-- The base address of `RXD` (R72). -/
def rxdBase : Nat := 0x4600

/-- `CSR.PLEN[k]` (R46). -/
def Csrs.plen (c : Csrs) : PReg → BitVec 10
  | .p0 => c.plen0
  | .p1 => c.plen1

/-- `CSR.PLEN[k] <- n` (R46). -/
def Csrs.setPlen (c : Csrs) (k : PReg) (n : BitVec 10) : Csrs :=
  match k with
  | .p0 => { c with plen0 := n }
  | .p1 => { c with plen1 := n }

/-- `CSR.PLEN[k]` of a state, as a number of bytes. -/
def State.plen (s : State) (k : PReg) : Nat := (s.csr.plen k).toNat

/-- `CSR.PLEN[k] <- n` of a state. -/
def State.setPlen (s : State) (k : PReg) (n : Nat) : State :=
  { s with csr := s.csr.setPlen k (BitVec.ofNat 10 n) }

/-- The valid content of a payload buffer, `P[k][0..PLEN[k]−1]` (R53). -/
def State.payload (s : State) (k : PReg) : List Byte := s.bytesAt (payloadBase k) (s.plen k)

/-- A gain or a level as used: at most 0x8000, which is 1.0 (R151, R171). -/
def clampUnit (g : BitVec 16) : Nat := min g.toNat 0x8000

end Sys2Proof.Machine
end

