-- ==== Sys2Proof/Machine/Bus.lean ====
section
/-! DEFINITION. The host bus (20_memory.md): the address map, the admission rules, `MemRead` and `MemWrite`. -/

namespace Sys2Proof.Machine

open Sys2Proof.Config (Params)

/-- The 24 control and status registers (R25). -/
inductive CsrName where
  | cmd | status | errFlags | cfg | limKnee | mixGain | stLevel | rmsOut
  | txSeq | rxLastSeq | rxInfo | pktsSent | pktsRecv | pktsLost | bytesSent | bytesRecv
  | lossPct | txFailCnt | encErrCnt | decErrCnt | plen0 | plen1 | txdLen | rxdLen
  deriving DecidableEq, Repr

/-- The register at a byte offset (R25). -/
def csrAtOffset (a : Nat) : Option CsrName :=
  match a with
  | 0x00 => some .cmd
  | 0x04 => some .status
  | 0x08 => some .errFlags
  | 0x0C => some .cfg
  | 0x10 => some .limKnee
  | 0x14 => some .mixGain
  | 0x18 => some .stLevel
  | 0x1C => some .rmsOut
  | 0x20 => some .txSeq
  | 0x24 => some .rxLastSeq
  | 0x28 => some .rxInfo
  | 0x2C => some .pktsSent
  | 0x30 => some .pktsRecv
  | 0x34 => some .pktsLost
  | 0x38 => some .bytesSent
  | 0x3C => some .bytesRecv
  | 0x40 => some .lossPct
  | 0x44 => some .txFailCnt
  | 0x48 => some .encErrCnt
  | 0x4C => some .decErrCnt
  | 0x50 => some .plen0
  | 0x54 => some .plen1
  | 0x58 => some .txdLen
  | 0x5C => some .rxdLen
  | _ => none

/-- The value a read of a register returns; `CMD` cannot be read (R25 to R48). -/
def csrRead (c : Csrs) : CsrName → Option Word
  | .cmd       => none
  | .status    => some (statusWord c)
  | .errFlags  => some (errFlagsWord c)
  | .cfg       => some (0#31 ++ BitVec.ofBool c.limEn)
  | .limKnee   => some (0#17 ++ c.knee)
  | .mixGain   => some (c.gainB ++ c.gainA)
  | .stLevel   => some (0#16 ++ c.level)
  | .rmsOut    => some (0#16 ++ c.rmsOut)
  | .txSeq     => some c.txSeq
  | .rxLastSeq => some c.rxLastSeq
  | .rxInfo    => some (rxInfoWord c)
  | .pktsSent  => some c.pktsSent
  | .pktsRecv  => some c.pktsRecv
  | .pktsLost  => some c.pktsLost
  | .bytesSent => some c.bytesSent
  | .bytesRecv => some c.bytesRecv
  | .lossPct   => some (0#16 ++ c.lossPct)
  | .txFailCnt => some c.txFailCnt
  | .encErrCnt => some c.encErrCnt
  | .decErrCnt => some c.decErrCnt
  | .plen0     => some (0#22 ++ c.plen0)
  | .plen1     => some (0#22 ++ c.plen1)
  | .txdLen    => some (0#22 ++ c.txdLen)
  | .rxdLen    => some (0#22 ++ c.rxdLen)

/-- A length register after the host writes `v`: a value above 512 is dropped (R46, R48). -/
def lengthWritten (old : BitVec 10) (v : Word) : BitVec 10 :=
  if v.toNat ≤ Config.bufCap then v.setWidth 10 else old

/-- The state after the host writes `v` to a register; `none` for a read-only one (R25 to R48, R89). -/
def csrWrite (s : State) (v : Word) : CsrName → Option State
  | .cmd       => some (s.startCommand v)
  | .errFlags  => some { s with csr := { s.csr with errFlags := errFlagsCleared s.csr.errFlags v } }
  | .cfg       => some { s with csr := { s.csr with limEn := v.getLsbD 0 } }
  | .limKnee   => some { s with csr := { s.csr with knee := v.setWidth 15 } }
  | .mixGain   => some { s with csr := { s.csr with gainA := v.extractLsb' 0 16, gainB := v.extractLsb' 16 16 } }
  | .stLevel   => some { s with csr := { s.csr with level := v.setWidth 16 } }
  | .plen0     => some { s with csr := { s.csr with plen0 := lengthWritten s.csr.plen0 v } }
  | .plen1     => some { s with csr := { s.csr with plen1 := lengthWritten s.csr.plen1 v } }
  | .rxdLen    => some { s with csr := { s.csr with rxdLen := lengthWritten s.csr.rxdLen v } }
  | .status | .rmsOut | .txSeq | .rxLastSeq | .rxInfo | .pktsSent | .pktsRecv | .pktsLost | .bytesSent | .bytesRecv
  | .lossPct | .txFailCnt | .encErrCnt | .decErrCnt | .txdLen => none

/-- The number of bytes of a transaction; `hsize = 3` is not admitted (R61). -/
def widthOf (hsize : BitVec 2) : Option Nat :=
  match hsize.toNat with
  | 0 => some 1
  | 1 => some 2
  | 2 => some 4
  | _ => none

/-- What an access of some width at some address reaches (R71 to R73, R79). -/
inductive Target where
  | csr     (r : CsrName)
  /-- The two-byte sample `F[k][i]`. -/
  | sample  (k : FReg) (i : Nat)
  /-- The samples `F[k][i]` and `F[k][i+1]`. -/
  | samples (k : FReg) (i : Nat)
  /-- Bytes inside one of the four buffers; `writable` is false for `TXD`. -/
  | bytes   (writable : Bool)
  | nothing
  deriving DecidableEq, Repr

/-- The frame register whose window is number `n` (R71). -/
def windowFrame : Nat → FReg
  | 0 => .f0
  | 1 => .f1
  | 2 => .f2
  | _ => .f3

/-- Where frame register `k`'s window begins, `FBASE(k)` (R71). -/
def frameBase : FReg → Nat
  | .f0 => 0x1000
  | .f1 => 0x1800
  | .f2 => 0x2000
  | .f3 => 0x2800

/-- The address map with the widths each region admits (R71 to R73, R79). A sample window admits no byte access and nothing
past sample `N − 1`; an access to the buffers lies inside one of them. -/
def locate (p : Params) (a n : Nat) : Target :=
  if a < 0x60 then
    if n = 4 then
      match csrAtOffset a with
      | some r => .csr r
      | none => .nothing
    else .nothing
  else if 0x1000 ≤ a ∧ a < 0x3000 then
    let k := windowFrame ((a - 0x1000) / 0x800)
    let off := (a - 0x1000) % 0x800
    if off + n ≤ 2 * p.frameLen then
      if n = 2 then .sample k (off / 2)
      else if n = 4 then .samples k (off / 2)
      else .nothing
    else .nothing
  else if 0x4000 ≤ a ∧ a < 0x4800 then
    if (a - 0x4000) % 0x200 + n ≤ 0x200 then .bytes (decide ((a - 0x4000) / 0x200 ≠ 2)) else .nothing
  else .nothing

/-- `MemRead` (R88). `none` is the answer `herr = 1` with `hrdata = 0`; an admitted read changes no state (R81). -/
def memRead (s : State) (addr : BitVec 16) (hsize : BitVec 2) : Option Word :=
  let a := addr.toNat
  match widthOf hsize with
  | none => none
  | some n =>
    if s.csr.busy = true ∧ ¬(a = 4 ∧ n = 4) then none
    else if a % n ≠ 0 then none
    else
      match locate s.params a n with
      | .csr r => csrRead s.csr r
      | .sample k i => some ((s.sample k i).setWidth 32)
      | .samples k i => some (s.sample k (i + 1) ++ s.sample k i)
      | .bytes _ => some (BitVec.ofNat 32 (leValue (s.bytesAt a n)))
      | .nothing => none

/-- `MemWrite` (R89). `none` is the answer `herr = 1`: the transaction has no effect. -/
def memWrite (s : State) (addr : BitVec 16) (hsize : BitVec 2) (v : Word) : Option State :=
  let a := addr.toNat
  match widthOf hsize with
  | none => none
  | some n =>
    if s.csr.busy = true then none
    else if a % n ≠ 0 then none
    else
      match locate s.params a n with
      | .csr r => csrWrite s v r
      | .sample k i => some (s.setSample k i (v.extractLsb' 0 16))
      | .samples k i => some ((s.setSample k i (v.extractLsb' 0 16)).setSample k (i + 1) (v.extractLsb' 16 16))
      | .bytes true => some (s.writeBytes a (leBytes n v.toNat))
      | .bytes false => none
      | .nothing => none

end Sys2Proof.Machine
end

