-- ==== Sys2Proof/Machine/Codec.lean ====
section
/-! DEFINITION. The codec adapter, `ENC` and `DEC` (40_codec.md). The codec core is a parameter of both operations; the
meanings supply the block's own, uninterpreted core (R130 to R133). -/

namespace Sys2Proof.Machine

open Sys2Proof.Config (CodecCore CodecState Frame Payload)

/-- The bytes of a payload buffer beyond the `len` bytes that `ENC` wrote: unspecified, drawn anew (R135, U2). -/
def scratchBytes (draw len : Nat) : List Byte :=
  (List.range (Config.bufCap - len)).map (fun j => Config.freeScratchByte draw (len + j))

/-- `ENC` when the core returns `Ok(b)` (R135). -/
def encodeOk (s : State) (pd : PReg) (c : CodecState) (b : List Byte) : State :=
  ((({ s with codecState := c }.writeBytes (payloadBase pd) (b ++ scratchBytes s.env.drawn b.length)).drawTaken).setPlen pd
    b.length).done

/-- `ENC` when the core returns `Err` (R135): the buffer and its length are unchanged. -/
def encodeErr (s : State) (c : CodecState) : State :=
  { s with codecState := c, csr := { s.csr with encErrCnt := s.csr.encErrCnt + 1 } }.raise .codec

/-- `ENC Pd, Fa` with a given core (R135). -/
def encodeWith (s : State) (core : CodecCore s.params) (pd : PReg) (fa : FReg) : State :=
  match core.enc s.codecState (s.frame fa) with
  | (c, some b) => encodeOk s pd c b.val
  | (c, none) => encodeErr s c

/-- A frame delivered by the core: the new codec state, the destination frame, `OK` (R137). -/
def decodeOk (s : State) (fd : FReg) (c : CodecState) (f : Frame s.params) : State :=
  { s.setFrame fd f with codecState := c }.done

/-- `DEC` when the core returns `Err` (R137): the destination frame is unchanged. -/
def decodeErr (s : State) (c : CodecState) : State :=
  { s with codecState := c, csr := { s.csr with decErrCnt := s.csr.decErrCnt + 1 } }.raise .codec

/-- The concealment path, `CodecPlc` (R137): it never fails. -/
def concealWith (s : State) (core : CodecCore s.params) (fd : FReg) : State :=
  let r := core.plc s.codecState
  decodeOk s fd r.1 r.2

/-- `DEC Fd, Pa` and `DEC.LOSS Fd` with a given core (R137; the order of the tests is R242's). -/
def decodeWith (s : State) (core : CodecCore s.params) (fd : FReg) (pa : PReg) (loss : Bool) : State :=
  if loss = true ∨ s.plen pa = 0 then concealWith s core fd
  else if s.plen pa > s.params.maxPayload then s.raise .tooBig
  else
    match core.dec s.codecState (s.payload pa) with
    | (c, some f) => decodeOk s fd c f
    | (c, none) => decodeErr s c

/-- `ENC Pd, Fa` (R135). -/
def execEnc (pd : PReg) (fa : FReg) (s : State) : Host.Outcome State Fault Refusal :=
  .next (encodeWith s (Config.codecCore s.params) pd fa)

/-- `DEC Fd, Pa` and `DEC.LOSS Fd` (R137). -/
def execDec (fd : FReg) (pa : PReg) (loss : Bool) (s : State) : Host.Outcome State Fault Refusal :=
  .next (decodeWith s (Config.codecCore s.params) fd pa loss)

end Sys2Proof.Machine
end

