-- ==== Sys2Proof/Machine/Limit.lean ====
section
/-! DEFINITION. The soft-knee limiter, `LIMIT` (42_limit.md). -/

namespace Sys2Proof.Machine

/-- `lim(x, T)` of R161, over the integers. -/
def lim (x : Int) (t : Nat) : Int :=
  if x.natAbs ≤ t then x else x.sign * ((t + (x.natAbs - t) / 4 : Nat) : Int)

/-- `lim` on a sample; the result always fits (R163). -/
def limSample (x : Sample) (t : Nat) : Sample := toSample (lim x.toInt t)

/-- `LIMIT Fd, Fa` (R162): with `LIM_EN = 0` it is a copy. -/
def execLimit (fd fa : FReg) (s : State) : Host.Outcome State Fault Refusal :=
  .next (s.setFrame fd (fun i =>
    if s.csr.limEn then limSample (s.frame fa i) s.csr.knee.toNat else s.frame fa i)).done

end Sys2Proof.Machine
end

