-- ==== Sys2Proof/Machine/Packet.lean ====
section
/-! DEFINITION. The packet formatter, `PKT_INIT`, `PKT_SEND`, `PKT_RECV` and `STATS_CLR` (45_packet.md). -/

namespace Sys2Proof.Machine

/-- The statistics that `PKT_INIT` and `STATS_CLR` both clear (R190, R215). -/
def Csrs.clearStats (c : Csrs) : Csrs :=
  { c with
    pktsSent := 0, bytesSent := 0, txFailCnt := 0
    pktsRecv := 0, pktsLost := 0, bytesRecv := 0, lossPct := 0 }

/-- `PKT_INIT` (R190). -/
def execPktInit (s : State) : Host.Outcome State Fault Refusal :=
  .next { s with csr := { s.csr.clearStats with
    txSeq := 0, rxLastSeq := 0, haveLast := false, rxPtt := false, rxCall := false } }.done

/-- `STATS_CLR` (R215). -/
def execStatsClr (s : State) : Host.Outcome State Fault Refusal :=
  .next { s with csr := s.csr.clearStats }.done

/-- The flags byte of a sender (R193): `M0 + 2 × M1`. -/
def flagsByte (ptt call : Bool) : Byte := 0#6 ++ BitVec.ofBool call ++ BitVec.ofBool ptt

/-- A serialized AudioPacket (R191, R195): the 12-byte header, then the payload. -/
def serializePacket (seq ts : Word) (ptt call : Bool) (payload : List Byte) : List Byte :=
  le32 seq ++ le32 ts ++ le16 (BitVec.ofNat 16 payload.length) ++ [flagsByte ptt call, 0] ++ payload

/-- The part of `PKT_SEND` that both outcomes of a request within the size limit share (R195): the sequence number is used,
the two inputs are sampled, the datagram is built. -/
def packetBuilt (s : State) (pa : PReg) (ptt call : Bool) : State :=
  let pkt := serializePacket s.csr.txSeq s.inputTimeUs ptt call (s.payload pa)
  { s.portsSampled.writeBytes txdBase pkt with
    csr := { s.csr with txSeq := s.csr.txSeq + 1, txdLen := BitVec.ofNat 10 (Config.hdrLen + s.plen pa) } }

/-- `PKT_SEND` when the link is up (R195): counted, announced by `tx_strobe`, `OK`. -/
def packetSent (s : State) (pa : PReg) (ptt call : Bool) : State :=
  let b := packetBuilt s pa ptt call
  let pkt := serializePacket s.csr.txSeq s.inputTimeUs ptt call (s.payload pa)
  ({ b with csr := { b.csr with
      pktsSent := b.csr.pktsSent + 1
      bytesSent := b.csr.bytesSent + BitVec.ofNat 32 (Config.hdrLen + s.plen pa) } }.emit (.txStrobe pkt)).done

/-- `PKT_SEND` when the link is down (R195, R196): the failure is counted, `E_LINK`. -/
def packetFailed (s : State) (pa : PReg) (ptt call : Bool) : State :=
  let b := packetBuilt s pa ptt call
  { b with csr := { b.csr with txFailCnt := b.csr.txFailCnt + 1 } }.raise .link

/-- `PKT_SEND Pa, ptt, call` (R195, R196). -/
def execPktSend (pa : PReg) (ptt call : Bool) (s : State) : Host.Outcome State Fault Refusal :=
  .next (
    if s.plen pa > s.params.maxPayload then s.raise .tooBig
    else if s.inputLinkUp then packetSent s pa ptt call
    else packetFailed s pa ptt call)

/-- `losspct(lost, recv)` of R208; the denominator is the sum without wrap. -/
def losspct (lost recv : Word) : BitVec 16 :=
  let den := recv.toNat + lost.toNat
  if den = 0 then 0 else BitVec.ofNat 16 (lost.toNat * 25600 / den)

/-- What the loss estimator adds for a datagram with number `seq` (R207): nothing for the first packet, otherwise the gap
above `last + 1`, which is taken modulo 2^32 and compared unsigned. -/
def lossGap (haveLast : Bool) (last seq : Word) : Word :=
  if haveLast = true ∧ last + 1 < seq then seq - (last + 1) else 0

/-- `RXD[j]`. -/
def State.rxd (s : State) (j : Nat) : Byte := s.byteAt (rxdBase + j)

/-- Header field `encoded_size` of the received datagram (R191, R203). -/
def State.rxSize (s : State) : Nat := (u16le (s.rxd 8) (s.rxd 9)).toNat

/-- Header field `sequence` of the received datagram (R191, R203). -/
def State.rxSeq (s : State) : Word := u32le (s.rxd 0) (s.rxd 1) (s.rxd 2) (s.rxd 3)

/-- The receive CSRs after an accepted datagram (R203, R206 to R209). -/
def Csrs.received (c : Csrs) (seq : Word) (flags : Byte) : Csrs :=
  let recv := c.pktsRecv + 1
  let lost := c.pktsLost + lossGap c.haveLast c.rxLastSeq seq
  { c with
    pktsRecv := recv
    bytesRecv := c.bytesRecv + c.rxdLen.setWidth 32
    pktsLost := lost
    rxLastSeq := seq
    haveLast := true
    lossPct := losspct lost recv
    rxPtt := flags.getLsbD 0
    rxCall := flags.getLsbD 1 }

/-- `PKT_RECV` on a datagram it accepts (R203, R209): accounted, delivered to `P[PX]`, announced by `rx_strobe`. -/
def packetReceived (s : State) (pd : PReg) : State :=
  let data := s.bytesAt (rxdBase + Config.hdrLen) s.rxSize
  (((({ s with csr := s.csr.received s.rxSeq (s.rxd 10) }).writeBytes (payloadBase pd) data).setPlen pd s.rxSize).emit
    .rxStrobe).done

/-- `PKT_RECV Pd` (R203, R204). -/
def execPktRecv (pd : PReg) (s : State) : Host.Outcome State Fault Refusal :=
  .next (
    if s.csr.rxdLen.toNat < Config.hdrLen then s.raise .short
    else if s.rxSize > s.params.maxPayload ∨ Config.hdrLen + s.rxSize > s.csr.rxdLen.toNat then s.raise .badSize
    else packetReceived s pd)

end Sys2Proof.Machine
end

