-- ==== Sys2Proof/Machine/Rms.lean ====
section
/-! DEFINITION. The level meter, `RMS` (44_rms.md). -/

namespace Sys2Proof.Machine

/-- The sum of the squares of the first `n` samples (R181), exact. -/
def sumSquares (f : Nat → Sample) : Nat → Nat
  | 0 => 0
  | n + 1 => sumSquares f n + (f n).toInt.natAbs * (f n).toInt.natAbs

/-- `isqrt(S div N)` of R181. -/
def rmsLevel (f : Nat → Sample) (n : Nat) : Nat := isqrt (sumSquares f n / n)

/-- `RMS Fa` (R181). -/
def execRms (fa : FReg) (s : State) : Host.Outcome State Fault Refusal :=
  .next { s with csr := { s.csr with rmsOut := BitVec.ofNat 16 (rmsLevel (s.sample fa) s.params.frameLen) } }.done

end Sys2Proof.Machine
end

