-- ==== Sys2Proof/Machine/Mix.lean ====
section
/-! DEFINITION. The mixer, `MIX` (41_mix.md), with `mixcore`, which it shares with `SIDETONE`. -/

namespace Sys2Proof.Machine

open Sys2Proof.Config (Frame Params)

/-- The exact weighted sum of two samples (R152, R153). -/
def weightedSum (a b : Sample) (ga gb : Nat) : Int := a.toInt * ga + b.toInt * gb

/-- One sample of `mixcore` (R152): the weighted sum over 32768, rounded toward zero, then clamped. -/
def mixSample (a b : Sample) (ga gb : Nat) : Sample := toSample (sat16 (trunc0 (weightedSum a b ga gb) 32768))

/-- `mixcore(a, b, ga, gb)` (R152). -/
def mixcore {p : Params} (a b : Frame p) (ga gb : Nat) : Frame p := fun i => mixSample (a i) (b i) ga gb

/-- `MIX Fd, Fa, Fb` (R152). -/
def execMix (fd fa fb : FReg) (s : State) : Host.Outcome State Fault Refusal :=
  .next (s.setFrame fd (mixcore (s.frame fa) (s.frame fb) (clampUnit s.csr.gainA) (clampUnit s.csr.gainB))).done

end Sys2Proof.Machine
end

