-- ==== Sys2Proof/Machine/Sidetone.lean ====
section
/-! DEFINITION. The sidetone blender, `SIDETONE` (43_sidetone.md). -/

namespace Sys2Proof.Machine

open Sys2Proof.Config (Frame Params)

/-- The blend of R172: with the gate active and a level above 0, `mixcore` of the incoming and the microphone frame with
gains that sum to 1.0; otherwise the incoming frame verbatim. -/
def sidetoneFrame {p : Params} (mic incoming : Frame p) (lv : Nat) (gate : Bool) : Frame p :=
  if gate = true ∧ 0 < lv then mixcore incoming mic (0x8000 - lv) lv else incoming

/-- `SIDETONE Fd, Fmic, Fin, gate` (R172). -/
def execSidetone (fd fmic fin : FReg) (gate : Bool) (s : State) : Host.Outcome State Fault Refusal :=
  .next (s.setFrame fd (sidetoneFrame (s.frame fmic) (s.frame fin) (clampUnit s.csr.level) gate)).done

end Sys2Proof.Machine
end

