-- ==== Sys2Proof/Machine/Dispatch.lean ====
section
/-! DEFINITION. One arm per command: the block's step on a decoded command (30_encoding.md R105, 70_reset_and_hazards.md R271). -/

namespace Sys2Proof.Machine

def exec (i : Instr) (s : State) : Host.Outcome State Fault Refusal :=
  match i with
  | .enc pd fa => Sys2Proof.Machine.execEnc pd fa s
  | .dec fd pa loss => Sys2Proof.Machine.execDec fd pa loss s
  | .mix fd fa fb => Sys2Proof.Machine.execMix fd fa fb s
  | .limit fd fa => Sys2Proof.Machine.execLimit fd fa s
  | .sidetone fd fmic fin gate => Sys2Proof.Machine.execSidetone fd fmic fin gate s
  | .rms fa => Sys2Proof.Machine.execRms fa s
  | .pktInit => Sys2Proof.Machine.execPktInit s
  | .pktSend pa ptt call => Sys2Proof.Machine.execPktSend pa ptt call s
  | .pktRecv pd => Sys2Proof.Machine.execPktRecv pd s
  | .statsClr => Sys2Proof.Machine.execStatsClr s

end Sys2Proof.Machine
end

