-- ==== Sys2Proof/Machine/Turn.lean ====
section
/-! DEFINITION. The two agents (70_reset_and_hazards.md R270): the block completes the pending command, the host performs its
next transaction; whose turn it is; and the assembler's pseudo-instructions as host transactions (30_encoding.md R118, R119). -/

namespace Sys2Proof.Machine

/-- The block's step (R271): it decodes `CMDREG` and executes the command; a word that is no command completes with
`E_ILLEGAL` (R232). -/
def blockTurn (s : State) : Host.Outcome State Fault Refusal :=
  match decode s.cmdReg with
  | .ok i => exec i s
  | .error _ => .next (s.raise .illegal)

/-- One host transaction is taken from the program (R24); it brings a pending command one transaction nearer its end. -/
def State.consume (s : State) (rest : List BusOp) : State :=
  { s with host := ⟨rest, s.host.pos + 1⟩, delay := s.delay - 1 }

/-- The answer to a read as observed: `hrdata` is 0 with `herr` (R88). -/
def readEvent : Option Word → Event
  | some v => .readAnswer false v
  | none => .readAnswer true 0

/-- The host's transaction `MemWrite` and its answer (R89). -/
def hostWrite (s : State) (addr : BitVec 16) (hsize : BitVec 2) (v : Word) : State :=
  match memWrite s addr hsize v with
  | some t => t.emit (.writeAnswer false)
  | none => s.emit (.writeAnswer true)

/-- The host's next step. With no program left it does nothing (R24, R260). `WAIT` reads `STATUS` and stays at its place in
the program while bit 0 of the answer is 1 (R119, log 8). -/
def hostTurn (s : State) : State :=
  match s.host.program with
  | [] => s
  | .read a z :: rest => (s.consume rest).emit (readEvent (memRead s a z))
  | .write a z v :: rest => hostWrite (s.consume rest) a z v
  | .wait :: rest =>
    let e := readEvent (memRead s 4 2)
    if s.csr.busy then { s with delay := s.delay - 1 }.emit e else (s.consume rest).emit e
  | .rst :: rest => (s.consume rest).resetBlock

/-- Whether the block moves next: a command is pending, and either the host transactions that come before its completion
are over or the host has none left (R84, R272, log 7). -/
def State.blockMoves (s : State) : Bool := s.csr.busy && (s.delay == 0 || s.host.program.isEmpty)

/-- `WR32 addr, v` (R118). -/
def wr32 (addr : BitVec 16) (v : Word) : BusOp := .write addr 2 v
/-- `WR16 addr, v` (R118). -/
def wr16 (addr : BitVec 16) (v : Word) : BusOp := .write addr 1 v
/-- `WR8 addr, v` (R118). -/
def wr8 (addr : BitVec 16) (v : Word) : BusOp := .write addr 0 v
/-- `RD32 addr` (R118). -/
def rd32 (addr : BitVec 16) : BusOp := .read addr 2
/-- `RD16 addr` (R118). -/
def rd16 (addr : BitVec 16) : BusOp := .read addr 1
/-- `RD8 addr` (R118). -/
def rd8 (addr : BitVec 16) : BusOp := .read addr 0

/-- A command line as a pseudo-instruction: the write of its word to `CMD`, then `WAIT` (R119). -/
def asmCommand (i : Instr) : List BusOp := [wr32 0x0000 (encode i), .wait]

/-- Writes of consecutive bytes from an address up. -/
def asmBytes (a : Nat) : List Byte → List BusOp
  | [] => []
  | b :: bs => wr8 (BitVec.ofNat 16 a) (b.setWidth 32) :: asmBytes (a + 1) bs

/-- Writes of consecutive samples from an address up. -/
def asmSamples (a : Nat) : List Sample → List BusOp
  | [] => []
  | x :: xs => wr16 (BitVec.ofNat 16 a) (x.setWidth 32) :: asmSamples (a + 2) xs

/-- `LDF Fk, [s0, …]` (R119). -/
def asmLdf (k : FReg) (xs : List Sample) : List BusOp := asmSamples (frameBase k) xs

/-- The address of `PLEN[k]` (R25). -/
def plenAddr : PReg → BitVec 16
  | .p0 => 0x0050
  | .p1 => 0x0054

/-- `LDP Pk, [b0, …]` (R119). -/
def asmLdp (k : PReg) (bs : List Byte) : List BusOp :=
  asmBytes (payloadBase k) bs ++ [wr32 (plenAddr k) (BitVec.ofNat 32 bs.length)]

/-- `LDRXD [b0, …]` (R119). -/
def asmLdrxd (bs : List Byte) : List BusOp := asmBytes rxdBase bs ++ [wr32 0x005C (BitVec.ofNat 32 bs.length)]

/-- `SETKNEE T` (R119). -/
def asmSetKnee (t : Word) : BusOp := wr32 0x0010 t

/-- `SETGAIN ga, gb` (R119). -/
def asmSetGain (ga gb : BitVec 16) : BusOp := wr32 0x0014 (gb ++ ga)

/-- `SETLEVEL L` (R119). -/
def asmSetLevel (l : Word) : BusOp := wr32 0x0018 l

end Sys2Proof.Machine
end

