-- ==== Sys2Proof/Machine/Step.lean ====
section
/-! DEFINITION. One step of the machine: one completion of the pending command or one host transaction (20_memory.md R83,
R84; 70_reset_and_hazards.md R270, R271). -/

namespace Sys2Proof.Machine

/-- The step: the block's turn or the host's. -/
def step (s : State) : Host.Outcome State Fault Refusal :=
  if s.blockMoves then blockTurn s else .next (hostTurn s)

/-- `s` with the command word `w` pending and the block about to complete it: what the host's write of `w` to `CMD` leaves
(R26), and no host transaction before the completion (log 10). -/
def State.withFetchWord (s : State) (nbits w : Nat) : State :=
  { s with cmdReg := BitVec.ofNat 32 (w % 2 ^ nbits), csr := { s.csr with busy := true }, delay := 0 }

end Sys2Proof.Machine
end

