-- ==== Sys2Proof/Safety.lean ====
section
/-! DEFINITION. What holds of every state a run reaches, and what a safe run is, in the words the claims use. -/

namespace Sys2Proof.Machine

/-- The invariant of the machine: a legal configuration (R5, R6), frame registers of exactly `N` samples (R20), a canonical
byte memory inside the buffer windows (R72), lengths and results in their ranges (R33, R46 to R48), and the relation of R51
between `LOSS_PCT` and the two counters it is made from. -/
structure State.Inv (s : State) : Prop where
  params   : paramsWellFormed s.params = true
  frames   : ∀ k, (s.frames.get k).length = s.params.frameLen
  memWf    : s.mem.wf
  memRange : ∀ c ∈ s.mem, 0x4000 ≤ c.1 ∧ c.1 < 0x4800
  plen     : ∀ k, s.plen k ≤ Config.bufCap
  txdLen   : s.csr.txdLen = 0 ∨ Config.hdrLen ≤ s.csr.txdLen.toNat ∧ s.csr.txdLen.toNat ≤ Config.hdrLen + s.params.maxPayload
  rxdLen   : s.csr.rxdLen.toNat ≤ Config.bufCap
  rmsOut   : s.csr.rmsOut.toNat ≤ 0x8000
  lossPct  : s.csr.lossPct = losspct s.csr.pktsLost s.csr.pktsRecv

/-- The states that runs reach: the reset state of any legal configuration with any host program and any draws, and what the
step makes of one. -/
inductive Reachable : State → Prop where
  | start (p : Config.Params) (program : List BusOp) (ports : List PortSample) (delays : List Nat)
      (h : paramsWellFormed p = true) :
      Reachable { State.resetWith p 0 with host := ⟨program, 0⟩, env := ⟨ports, delays, 0, 0⟩ }
  | step {s t : State} (hs : Reachable s) (h : step s = .next t) : Reachable t

/-- A safe run: `n` steps that all answer a next state. -/
def RunsSafely : Nat → State → Prop
  | 0, _ => True
  | n + 1, s => ∃ t, step s = .next t ∧ RunsSafely n t

/-- The destination frame register of a command, if it has one (R22). -/
def destination : Instr → Option FReg
  | .dec fd _ _ | .mix fd _ _ | .limit fd _ | .sidetone fd _ _ _ => some fd
  | .enc .. | .rms .. | .pktInit | .pktSend .. | .pktRecv .. | .statsClr => none

/-- The completion code that R230 gives a command in a state, its causes tested in the order of R242. -/
def expectedCode (i : Instr) (s : State) : CompletionCode :=
  match i with
  | .enc _ fa => if ((Config.codecCore s.params).enc s.codecState (s.frame fa)).2.isSome then .ok else .codec
  | .dec _ pa loss =>
    if loss = true ∨ s.plen pa = 0 then .ok
    else if s.plen pa > s.params.maxPayload then .tooBig
    else if ((Config.codecCore s.params).dec s.codecState (s.payload pa)).2.isSome then .ok
    else .codec
  | .pktSend pa _ _ => if s.plen pa > s.params.maxPayload then .tooBig else if s.inputLinkUp then .ok else .link
  | .pktRecv _ =>
    if s.csr.rxdLen.toNat < 12 then .short
    else if s.rxSize > s.params.maxPayload ∨ 12 + s.rxSize > s.csr.rxdLen.toNat then .badSize
    else .ok
  | .mix .. | .limit .. | .sidetone .. | .rms .. | .pktInit | .statsClr => .ok

/-- The host has placed a datagram in `RXD` and its length in `RXD_LEN` (R55). -/
def State.presented (s : State) (d : List Byte) : State :=
  { s.writeBytes rxdBase d with csr := { s.csr with rxdLen := BitVec.ofNat 10 d.length } }

/-- The state after each datagram of a list was presented and received into `P[pd]`. -/
def receiveAll (pd : PReg) : List (List Byte) → State → State
  | [], s => s
  | d :: ds, s =>
    match exec (.pktRecv pd) (s.presented d) with
    | .next t => receiveAll pd ds t
    | .fault _ => s
    | .refused _ => s

end Sys2Proof.Machine
end

