-- ==== Sys2Proof/Certificates/Slice0/Obligations.lean ====
section
/-! DEFINITION. The statements for the provers. Each is about the machine, over every state its premises admit; the rule of the
spec it formalises stands in its docstring. -/

open Sys2Proof Sys2Proof.Machine

/-! ### Encoding and the step -/

/-- Command words written out in 95_test_vectors.md (sections 2.1 to 2.9 and 2.5) decode to the commands they stand for, and the
illegal ones to no command. -/
def Obligations.SpecWordsDecode : Prop :=
  decode 0x00000410 = .ok (.enc .p0 .f1) ∧ decode 0x00100010 = .ok (.enc .p1 .f0) ∧
  decode 0x00000311 = .ok (.dec .f3 .p0 false) ∧ decode 0x00010211 = .ok (.dec .f2 .p0 true) ∧
  decode 0x00110211 = .ok (.dec .f2 .p1 true) ∧ decode 0x00001220 = .ok (.mix .f2 .f0 .f1) ∧
  decode 0x00002420 = .ok (.mix .f0 .f1 .f2) ∧ decode 0x00000721 = .ok (.limit .f3 .f1) ∧
  decode 0x00011B22 = .ok (.sidetone .f3 .f2 .f1 true) ∧ decode 0x00001122 = .ok (.sidetone .f1 .f0 .f1 false) ∧
  decode 0x00000823 = .ok (.rms .f2) ∧ decode 0x00000030 = .ok .pktInit ∧
  decode 0x00110031 = .ok (.pktSend .p1 true false) ∧ decode 0x00020031 = .ok (.pktSend .p0 false true) ∧
  decode 0x00100032 = .ok (.pktRecv .p1) ∧ decode 0x00000033 = .ok .statsClr ∧
  decode 0x00000000 = .error .unknownOpcode ∧ decode 0x00000024 = .error .unknownOpcode ∧
  decode 0x00000110 = .error .mustBeZero ∧ decode 0x00020011 = .error .mustBeZero ∧
  decode 0x00004020 = .error .mustBeZero ∧ decode 0x80000033 = .error .mustBeZero

/-- Decode and encode agree both ways: of the 2^32 words, the ones that decode to a command are exactly that command's own
word (R101 to R106). No bit is dropped and no two words stand for one command. -/
def Obligations.DecodeAndEncodeAgree : Prop :=
  ∀ (w : Word) (i : Instr), decode w = .ok i ↔ w = encode i

/-- The rows of the opcode map never overlap (from R104): no word is a word of two of them. -/
def Obligations.OpcodeRowsNeverOverlap : Prop :=
  opcodeTable.Pairwise (fun r q => ∀ w : Word, ¬ (r.hits w = true ∧ q.hits w = true))

/-- R102: a word is a command exactly when its opcode is in the table and every bit outside the fields the command uses is
zero. The left side is the decoder's masks (R104), the right side R102's table. -/
def Obligations.CommandWordsAreTheWellFormedOnes : Prop :=
  ∀ w : Word, (∃ i, decode w = .ok i) ↔ wordWellFormed w = true

/-- The word column of R110: each command's word as a sum of its opcode and its shifted operands. -/
def Obligations.AssemblerWords : Prop :=
  ∀ (d a b : FReg) (p : PReg) (g h : Bool),
    let n := fun k : FReg => match k with | .f0 => 0 | .f1 => 1 | .f2 => 2 | .f3 => 3
    let m := fun k : PReg => match k with | .p0 => 0 | .p1 => 1
    (encode (.enc p a)).toNat = 0x10 + n a * 2 ^ 10 + m p * 2 ^ 20 ∧
    (encode (.dec d p g)).toNat = 0x11 + n d * 2 ^ 8 + g.toNat * 2 ^ 16 + m p * 2 ^ 20 ∧
    (encode (.mix d a b)).toNat = 0x20 + n d * 2 ^ 8 + n a * 2 ^ 10 + n b * 2 ^ 12 ∧
    (encode (.limit d a)).toNat = 0x21 + n d * 2 ^ 8 + n a * 2 ^ 10 ∧
    (encode (.sidetone d a b g)).toNat = 0x22 + n d * 2 ^ 8 + n a * 2 ^ 10 + n b * 2 ^ 12 + g.toNat * 2 ^ 16 ∧
    (encode (.rms a)).toNat = 0x23 + n a * 2 ^ 10 ∧
    (encode .pktInit).toNat = 0x30 ∧
    (encode (.pktSend p g h)).toNat = 0x31 + g.toNat * 2 ^ 16 + h.toNat * 2 ^ 17 + m p * 2 ^ 20 ∧
    (encode (.pktRecv p)).toNat = 0x32 + m p * 2 ^ 20 ∧
    (encode .statsClr).toNat = 0x33

/-- R105: the block's step decodes `CMDREG` and executes the command it finds; the step adds nothing around it. The second part
is the same for a word the model's `withFetchWord` makes pending. That the block moves once `delay` is 0 or the host has nothing
left to do is the model's choice (log 7). -/
def Obligations.StepExecutesThePendingCommand : Prop :=
  (∀ (s : State) (i : Instr), s.csr.busy = true → s.delay = 0 ∨ s.host.program = [] → decode s.cmdReg = .ok i →
    step s = exec i s) ∧
  ∀ (s : State) (i : Instr),
    step (s.withFetchWord 32 (encode i).toNat) = exec i (s.withFetchWord 32 (encode i).toNat)

/-- R232: completing a word that matches no command writes `ERR` 1, sets `ERRFLAGS[1]` and clears `BUSY`; nothing else
changes. The words are the ones that R102 makes ill formed. -/
def Obligations.IllegalWordOnlyReportsIt : Prop :=
  ∀ s : State, s.csr.busy = true → s.delay = 0 → wordWellFormed s.cmdReg = false →
    step s = .next { s with csr := { s.csr with busy := false, err := .illegal, errFlags := s.csr.errFlags ||| 1 } }

/-- The machine stops nowhere: from every state, any number of steps all answer a next state (R231, R246). -/
def Obligations.RunsNeverStop : Prop := ∀ (n : Nat) (s : State), RunsSafely n s

/-! ### Completion codes -/

/-- R230: every command completes with the one code its cause gives, `BUSY` is cleared, the code's sticky flag and no other is
set, and the failure counters count `E_CODEC` and `E_LINK`. -/
def Obligations.EveryCommandCompletesWithItsCode : Prop :=
  ∀ (i : Instr) (s : State), ∃ t, exec i s = .next t ∧
    t.csr.busy = false ∧
    t.csr.err = expectedCode i s ∧
    (t.csr.err = .ok → t.csr.errFlags = s.csr.errFlags) ∧
    (t.csr.err ≠ .ok → ∃ c : Nat, 1 ≤ c ∧ c ≤ 6 ∧ codeNumber t.csr.err = c ∧
      t.csr.errFlags = s.csr.errFlags ||| BitVec.twoPow 6 (c - 1)) ∧
    (t.csr.err = .codec → t.csr.encErrCnt + t.csr.decErrCnt = s.csr.encErrCnt + s.csr.decErrCnt + 1) ∧
    (t.csr.err = .link → t.csr.txFailCnt = s.csr.txFailCnt + 1) ∧
    (t.csr.err ≠ .codec → t.csr.encErrCnt = s.csr.encErrCnt ∧ t.csr.decErrCnt = s.csr.decErrCnt)

/-- Errors are precise (60_exceptions.md section 4, from R244): after `E_TOOBIG`, `E_SHORT` or `E_BADSIZE` nothing but the
report has changed; after `E_CODEC` nothing but the report, the two codec counters and the codec state. -/
def Obligations.ErrorsArePrecise : Prop :=
  ∀ (i : Instr) (s t : State), exec i s = .next t →
    (t.csr.err = .tooBig ∨ t.csr.err = .short ∨ t.csr.err = .badSize →
      t = { s with csr := { s.csr with busy := false, err := t.csr.err, errFlags := t.csr.errFlags } }) ∧
    (t.csr.err = .codec →
      t = { s with
        codecState := t.codecState
        csr := { s.csr with
          busy := false, err := .codec, errFlags := t.csr.errFlags
          encErrCnt := t.csr.encErrCnt, decErrCnt := t.csr.decErrCnt } })

/-! ### The audio commands -/

/-- R152: `MIX` writes to each of the `N` samples of `F[FD]` the weighted sum of the two sources over 32768, rounded toward
zero and clamped to 16 bits, with gains of at most 0x8000, all from the old register values; only `F[FD]`, `BUSY` and `ERR`
change. -/
def Obligations.MixResult : Prop :=
  ∀ (fd fa fb : FReg) (s : State), ∃ x : List Sample,
    exec (.mix fd fa fb) s =
      .next { s with frames := s.frames.set fd x, csr := { s.csr with busy := false, err := .ok } } ∧
    x.length = s.params.frameLen ∧
    ∀ i, i < s.params.frameLen → ∃ v : Sample, x[i]? = some v ∧
      v.toInt = max (-32768) (min 32767 (Int.tdiv
        ((s.sample fa i).toInt * (min s.csr.gainA.toNat 0x8000 : Nat) +
          (s.sample fb i).toInt * (min s.csr.gainB.toNat 0x8000 : Nat)) 32768))

/-- The corners of `MIX` (41_mix.md, from R151 and R152): unity and zero gain copies the first source exactly, two zero gains
give silence, two unity gains (stored as 0x8000 or more) give the saturating sum. -/
def Obligations.MixCorners : Prop :=
  ∀ (fd fa fb : FReg) (s t : State) (i : Nat), exec (.mix fd fa fb) s = .next t → i < s.params.frameLen →
    (0x8000 ≤ s.csr.gainA.toNat → s.csr.gainB = 0 → t.sample fd i = s.sample fa i) ∧
    (s.csr.gainA = 0 → s.csr.gainB = 0 → t.sample fd i = 0) ∧
    (0x8000 ≤ s.csr.gainA.toNat → 0x8000 ≤ s.csr.gainB.toNat →
      (t.sample fd i).toInt = max (-32768) (min 32767 ((s.sample fa i).toInt + (s.sample fb i).toInt)))

/-- The accumulator of `MIX` (41_mix.md, from R152): for gains of at most 0x8000 the exact weighted sum lies in
−2^31 .. 2^31 − 65536 and its quotient in −65536 .. 65534, so 32 signed bits never overflow. -/
def Obligations.MixAccumulatorFits : Prop :=
  ∀ (a b : Sample) (ga gb : Nat), ga ≤ 0x8000 → gb ≤ 0x8000 →
    -2 ^ 31 ≤ weightedSum a b ga gb ∧ weightedSum a b ga gb ≤ 2 ^ 31 - 65536 ∧
    -65536 ≤ trunc0 (weightedSum a b ga gb) 32768 ∧ trunc0 (weightedSum a b ga gb) 32768 ≤ 65534

/-- R161 and R162: with `LIM_EN = 0` `LIMIT` copies; otherwise a sample of magnitude at most the knee stays and a larger one
becomes the knee plus a quarter of its overshoot, with its sign; only `F[FD]`, `BUSY` and `ERR` change. -/
def Obligations.LimitResult : Prop :=
  ∀ (fd fa : FReg) (s : State), ∃ x : List Sample,
    exec (.limit fd fa) s =
      .next { s with frames := s.frames.set fd x, csr := { s.csr with busy := false, err := .ok } } ∧
    x.length = s.params.frameLen ∧
    ∀ i, i < s.params.frameLen → ∃ v : Sample, x[i]? = some v ∧
      (s.csr.limEn = false → v = s.sample fa i) ∧
      (s.csr.limEn = true → |(s.sample fa i).toInt| ≤ s.csr.knee.toNat → v = s.sample fa i) ∧
      (s.csr.limEn = true → |(s.sample fa i).toInt| > s.csr.knee.toNat →
        v.toInt = (s.sample fa i).toInt.sign *
          (s.csr.knee.toNat + (|(s.sample fa i).toInt| - s.csr.knee.toNat) / 4))

/-- The source's testable property of the limiter (42_limit.md, from R160 to R162), for every frame: with the reset knee, if the
source's peak is at most `m`, and `m` is above the knee, no output magnitude exceeds 0.95·32767 + (m − 0.95·32767)/4. Both sides
are multiplied by 400. -/
def Obligations.LimiterPeakBound : Prop :=
  ∀ (fd fa : FReg) (s t : State) (m : Nat),
    s.csr.limEn = true → s.csr.knee = 31128 → 31128 < m →
    (∀ i, i < s.params.frameLen → |(s.sample fa i).toInt| ≤ m) →
    exec (.limit fd fa) s = .next t →
    ∀ i, i < s.params.frameLen → 400 * |(t.sample fd i).toInt| ≤ 285 * 32767 + 100 * (m : Int)

/-- The curve of the limiter (42_limit.md, from R161): it never inverts two samples, it is odd, it never makes −32768, and it
does not jump at the knee. -/
def Obligations.LimiterCurveShape : Prop :=
  ∀ (t : BitVec 15),
    (∀ x y : Sample, x.toInt ≤ y.toInt → (limSample x t.toNat).toInt ≤ (limSample y t.toNat).toInt) ∧
    (∀ x y : Sample, y.toInt = -x.toInt → (limSample y t.toNat).toInt = -(limSample x t.toNat).toInt) ∧
    (∀ x : Sample, |(limSample x t.toNat).toInt| ≤ 32767) ∧
    (∀ x : Sample, x.toInt = t.toNat + 1 → (limSample x t.toNat).toInt = t.toNat)

/-- R171 and R172: with the gate active and a level above 0 `SIDETONE` blends, with the level clamped to 0x8000 and the other gain
its complement; otherwise it copies the incoming frame; only `F[FD]`, `BUSY` and `ERR` change. -/
def Obligations.SidetoneResult : Prop :=
  ∀ (fd fmic fin : FReg) (gate : Bool) (s : State), ∃ x : List Sample,
    exec (.sidetone fd fmic fin gate) s =
      .next { s with frames := s.frames.set fd x, csr := { s.csr with busy := false, err := .ok } } ∧
    x.length = s.params.frameLen ∧
    ∀ i, i < s.params.frameLen → ∃ v : Sample, x[i]? = some v ∧
      (gate = false ∨ s.csr.level = 0 → v = s.sample fin i) ∧
      (gate = true → s.csr.level ≠ 0 → v.toInt = max (-32768) (min 32767 (Int.tdiv
        ((s.sample fin i).toInt * (0x8000 - min s.csr.level.toNat 0x8000 : Nat) +
          (s.sample fmic i).toInt * (min s.csr.level.toNat 0x8000 : Nat)) 32768)))

/-- The corners of `SIDETONE` (43_sidetone.md, from R172): the clamp never acts, a full level gives the microphone alone, and
blending a frame with itself gives it back. -/
def Obligations.SidetoneCorners : Prop :=
  ∀ (fd fmic fin : FReg) (s t : State) (i : Nat), exec (.sidetone fd fmic fin true) s = .next t → i < s.params.frameLen →
    (t.sample fd i).toInt = Int.tdiv
      ((s.sample fin i).toInt * (0x8000 - min s.csr.level.toNat 0x8000 : Nat) +
        (s.sample fmic i).toInt * (min s.csr.level.toNat 0x8000 : Nat)) 32768 ∧
    (0x8000 ≤ s.csr.level.toNat → t.sample fd i = s.sample fmic i) ∧
    (fmic = fin → t.sample fd i = s.sample fin i)

/-- R181: `RMS` writes to `RMS_OUT` the largest `r` whose square is at most the floor of the mean square, and at most 0x8000;
only `RMS_OUT`, `BUSY` and `ERR` change. -/
def Obligations.RmsResult : Prop :=
  ∀ (fa : FReg) (s : State), ∃ r : BitVec 16,
    exec (.rms fa) s = .next { s with csr := { s.csr with rmsOut := r, busy := false, err := .ok } } ∧
    r.toNat ≤ 0x8000 ∧
    r.toNat * r.toNat ≤ (∑ i ∈ Finset.range s.params.frameLen, (s.sample fa i).toInt.natAbs ^ 2) / s.params.frameLen ∧
    (∑ i ∈ Finset.range s.params.frameLen, (s.sample fa i).toInt.natAbs ^ 2) / s.params.frameLen
      < (r.toNat + 1) * (r.toNat + 1)

/-- A constant frame of value `c` measures |c| (44_rms.md, from R181), 0x8000 for −32768. -/
def Obligations.RmsOfConstantFrame : Prop :=
  ∀ (fa : FReg) (s t : State) (c : Sample), 1 ≤ s.params.frameLen → (∀ i, i < s.params.frameLen → s.sample fa i = c) →
    exec (.rms fa) s = .next t → t.csr.rmsOut.toNat = c.toInt.natAbs

/-! ### The codec commands -/

/-- R135, for the block's own core and for every core in its place: on `Ok(b)` the bytes of `b` are in `P[PX]`, `PLEN[PX]` is
their number and no byte outside `P[PX]` changed; on `Err` the failure is counted and only the codec state changed besides the
report. -/
def Obligations.EncodeResult : Prop :=
  ∀ (pd : PReg) (fa : FReg) (s : State), paramsWellFormed s.params = true →
    exec (.enc pd fa) s = .next (encodeWith s (Config.codecCore s.params) pd fa) ∧
    ∀ core : Config.CodecCore s.params,
      match core.enc s.codecState (fun i => s.sample fa i) with
      | (c, some b) =>
        ∃ m : Memory,
          encodeWith s core pd fa = { s with
            mem := m
            codecState := c
            csr := { s.csr.setPlen pd (BitVec.ofNat 10 b.val.length) with busy := false, err := .ok }
            env := { s.env with drawn := s.env.drawn + 1 } } ∧
          (∀ (j : Nat) (h : j < b.val.length), { s with mem := m }.byteAt (payloadBase pd + j) = b.val[j]) ∧
          ∀ a, a < payloadBase pd ∨ payloadBase pd + 512 ≤ a → { s with mem := m }.byteAt a = s.byteAt a
      | (c, none) =>
        encodeWith s core pd fa = { s with
          codecState := c
          csr := { s.csr with
            busy := false, err := .codec, errFlags := s.csr.errFlags ||| 16, encErrCnt := s.csr.encErrCnt + 1 } }

/-- R137, for the block's own core and for every core in its place: the loss bit or an empty payload takes the concealment path,
which always ends `OK`; a payload longer than `MAX_PAYLOAD` changes nothing but the report; otherwise the core decodes the
payload's bytes, and its frame goes to `F[FD]` or its failure is counted. Nothing else changes. -/
def Obligations.DecodeResult : Prop :=
  ∀ (fd : FReg) (pa : PReg) (loss : Bool) (s : State),
    exec (.dec fd pa loss) s = .next (decodeWith s (Config.codecCore s.params) fd pa loss) ∧
    ∀ core : Config.CodecCore s.params,
      (loss = true ∨ s.csr.plen pa = 0 →
        decodeWith s core fd pa loss = { s with
          frames := s.frames.set fd (List.ofFn (core.plc s.codecState).2)
          codecState := (core.plc s.codecState).1
          csr := { s.csr with busy := false, err := .ok } }) ∧
      (loss = false → s.params.maxPayload < (s.csr.plen pa).toNat → s.csr.plen pa ≠ 0 →
        decodeWith s core fd pa loss =
          { s with csr := { s.csr with busy := false, err := .tooBig, errFlags := s.csr.errFlags ||| 2 } }) ∧
      (loss = false → (s.csr.plen pa).toNat ≤ s.params.maxPayload → s.csr.plen pa ≠ 0 →
        match core.dec s.codecState
          ((List.range (s.csr.plen pa).toNat).map (fun j => s.byteAt (payloadBase pa + j))) with
        | (c, some f) =>
          decodeWith s core fd pa loss = { s with
            frames := s.frames.set fd (List.ofFn f)
            codecState := c
            csr := { s.csr with busy := false, err := .ok } }
        | (c, none) =>
          decodeWith s core fd pa loss = { s with
            codecState := c
            csr := { s.csr with
              busy := false, err := .codec, errFlags := s.csr.errFlags ||| 16, decErrCnt := s.csr.decErrCnt + 1 } })

/-- `DEC.LOSS` does not look at `PX`, the payload or its length (R107, R137). -/
def Obligations.DecLossIgnoresThePayload : Prop :=
  ∀ (fd : FReg) (pa pb : PReg) (s : State) (a : Nat) (bs : List Byte) (k : PReg) (n : BitVec 10),
    exec (.dec fd pa true) s = exec (.dec fd pb true) s ∧
    ∀ t, exec (.dec fd pa true) s = .next t →
      exec (.dec fd pa true) { s with mem := s.mem.write a bs, csr := s.csr.setPlen k n } =
        .next { t with mem := s.mem.write a bs, csr := t.csr.setPlen k n }

/-- The source's round trip (95_test_vectors.md T1; 40_codec.md section 1), for every core that has the round-trip property
and returns a non-empty payload: `ENC` then `DEC` of the same buffer completes `OK` with `N` samples in the destination. -/
def Obligations.EncodeThenDecodeCompletes : Prop :=
  ∀ (pd : PReg) (fa fd : FReg) (s : State) (core : Config.CodecCore s.params) (c : Config.CodecState)
    (b : Config.Payload s.params),
    paramsWellFormed s.params = true → Config.RoundTrips core →
    core.enc s.codecState (s.frame fa) = (c, some b) → b.val ≠ [] →
    encodeWith s core pd fa = encodeOk s pd c b.val ∧
    (decodeWith (encodeOk s pd c b.val) core fd pd false).csr.err = .ok ∧
    ((decodeWith (encodeOk s pd c b.val) core fd pd false).frames.get fd).length = s.params.frameLen

/-! ### The packet formatter -/

/-- R190: `PKT_INIT` clears the statistics, the sequence number, the last sequence number and `RX_INFO`, and nothing else but
`BUSY` and `ERR` changes. -/
def Obligations.PktInitResult : Prop :=
  ∀ s : State, exec .pktInit s = .next { s with csr := { s.csr with
    txSeq := 0, rxLastSeq := 0, rxPtt := false, rxCall := false, haveLast := false
    pktsSent := 0, bytesSent := 0, txFailCnt := 0, pktsRecv := 0, pktsLost := 0, bytesRecv := 0, lossPct := 0
    busy := false, err := .ok } }

/-- R215: `STATS_CLR` clears the statistics, and nothing else but `BUSY` and `ERR` changes. -/
def Obligations.StatsClrResult : Prop :=
  ∀ s : State, exec .statsClr s = .next { s with csr := { s.csr with
    pktsSent := 0, bytesSent := 0, txFailCnt := 0, pktsRecv := 0, pktsLost := 0, bytesRecv := 0, lossPct := 0
    busy := false, err := .ok } }

/-- R195 and R196: an oversized request changes nothing but the report; otherwise `TXD` holds the header of R191, with the used
sequence number, the sampled time, the length and the flags, and then the payload, no other byte changed, and the request is
counted and announced with the link up, or counted as failed and reported with the link down. -/
def Obligations.PktSendResult : Prop :=
  ∀ (pa : PReg) (ptt call : Bool) (s : State),
    (s.params.maxPayload < s.plen pa →
      exec (.pktSend pa ptt call) s =
        .next { s with csr := { s.csr with busy := false, err := .tooBig, errFlags := s.csr.errFlags ||| 2 } }) ∧
    (s.plen pa ≤ s.params.maxPayload → ∃ m : Memory,
      (let txd := fun j => ({ s with mem := m }.byteAt (0x4400 + j)).toNat
       txd 0 + 2 ^ 8 * txd 1 + 2 ^ 16 * txd 2 + 2 ^ 24 * txd 3 = s.csr.txSeq.toNat ∧
       txd 4 + 2 ^ 8 * txd 5 + 2 ^ 16 * txd 6 + 2 ^ 24 * txd 7 = s.inputTimeUs.toNat ∧
       txd 8 + 2 ^ 8 * txd 9 = s.plen pa ∧
       txd 10 = ptt.toNat + 2 * call.toNat ∧
       txd 11 = 0 ∧
       (∀ j, j < s.plen pa → { s with mem := m }.byteAt (0x4400 + 12 + j) = s.byteAt (payloadBase pa + j)) ∧
       ∀ a, a < 0x4400 ∨ 0x4400 + 12 + s.plen pa ≤ a → { s with mem := m }.byteAt a = s.byteAt a) ∧
      (s.inputLinkUp = true → exec (.pktSend pa ptt call) s = .next { s with
        mem := m
        csr := { s.csr with
          txSeq := s.csr.txSeq + 1, txdLen := BitVec.ofNat 10 (12 + s.plen pa)
          pktsSent := s.csr.pktsSent + 1, bytesSent := s.csr.bytesSent + BitVec.ofNat 32 (12 + s.plen pa)
          busy := false, err := .ok }
        env := { s.env with ports := s.env.ports.tail, drawn := s.env.drawn + 1 }
        log := .txStrobe ({ s with mem := m }.bytesAt 0x4400 (12 + s.plen pa)) :: s.log }) ∧
      (s.inputLinkUp = false → exec (.pktSend pa ptt call) s = .next { s with
        mem := m
        csr := { s.csr with
          txSeq := s.csr.txSeq + 1, txdLen := BitVec.ofNat 10 (12 + s.plen pa)
          txFailCnt := s.csr.txFailCnt + 1
          busy := false, err := .link, errFlags := s.csr.errFlags ||| 32 }
        env := { s.env with ports := s.env.ports.tail, drawn := s.env.drawn + 1 } }))

/-- R203, with R204 and R206 to R209: a datagram shorter than a header, or with an impossible size field, changes nothing but
the report; any other is counted, adds its gap to the loss count, moves the last sequence number, and is delivered to `P[PX]`
with its flags, no other byte changed. -/
def Obligations.PktRecvResult : Prop :=
  ∀ (pd : PReg) (s : State),
    let rxd := fun j => (s.byteAt (0x4600 + j)).toNat
    let len := s.csr.rxdLen.toNat
    let es := rxd 8 + 2 ^ 8 * rxd 9
    let seq := BitVec.ofNat 32 (rxd 0 + 2 ^ 8 * rxd 1 + 2 ^ 16 * rxd 2 + 2 ^ 24 * rxd 3)
    let recv := s.csr.pktsRecv + 1
    let lost := if s.csr.haveLast = true ∧ (s.csr.rxLastSeq + 1).toNat < seq.toNat
      then s.csr.pktsLost + (seq - (s.csr.rxLastSeq + 1)) else s.csr.pktsLost
    (len < 12 → exec (.pktRecv pd) s =
      .next { s with csr := { s.csr with busy := false, err := .short, errFlags := s.csr.errFlags ||| 4 } }) ∧
    (12 ≤ len → s.params.maxPayload < es ∨ len < 12 + es → exec (.pktRecv pd) s =
      .next { s with csr := { s.csr with busy := false, err := .badSize, errFlags := s.csr.errFlags ||| 8 } }) ∧
    (12 + es ≤ len → es ≤ s.params.maxPayload → ∃ m : Memory,
      exec (.pktRecv pd) s = .next { s with
        mem := m
        csr := { s.csr.setPlen pd (BitVec.ofNat 10 es) with
          pktsRecv := recv, bytesRecv := s.csr.bytesRecv + BitVec.ofNat 32 len
          pktsLost := lost, rxLastSeq := seq, haveLast := true
          lossPct := BitVec.ofNat 16 (if recv.toNat + lost.toNat = 0 then 0
            else lost.toNat * 25600 / (recv.toNat + lost.toNat))
          rxPtt := decide (rxd 10 % 2 = 1), rxCall := decide (rxd 10 / 2 % 2 = 1)
          busy := false, err := .ok }
        log := .rxStrobe :: s.log } ∧
      (∀ j, j < es → { s with mem := m }.byteAt (payloadBase pd + j) = s.byteAt (0x4600 + 12 + j)) ∧
      ∀ a, a < payloadBase pd ∨ payloadBase pd + es ≤ a → { s with mem := m }.byteAt a = s.byteAt a)

/-- R208: `losspct` is the floor of 25600 times the lost share of all datagrams, at most 25600, and 0 when there are none. -/
def Obligations.LossPercentIsTheFloor : Prop :=
  ∀ lost recv : Word,
    (recv.toNat + lost.toNat = 0 → losspct lost recv = 0) ∧
    (losspct lost recv).toNat ≤ 25600 ∧
    (0 < recv.toNat + lost.toNat →
      (losspct lost recv).toNat * (recv.toNat + lost.toNat) ≤ lost.toNat * 25600 ∧
      lost.toNat * 25600 < ((losspct lost recv).toNat + 1) * (recv.toNat + lost.toNat))

/-- What the estimator conserves (from R207): an accepted datagram that is not behind the expected number moves the sum of
the received and lost counts by exactly as much as the last sequence number, modulo 2^32. -/
def Obligations.InOrderDatagramConservesTheCount : Prop :=
  ∀ (pd : PReg) (s t : State), exec (.pktRecv pd) s = .next t → t.csr.err = .ok → s.csr.haveLast = true →
    (s.csr.rxLastSeq + 1).toNat ≤ t.csr.rxLastSeq.toNat →
    t.csr.pktsRecv + t.csr.pktsLost - t.csr.rxLastSeq = s.csr.pktsRecv + s.csr.pktsLost - s.csr.rxLastSeq

/-- The estimator is exact on an increasing stream (from R203 and R207; the source's example [0,1,2,5,6] is one): from the
state after transport start, datagrams with strictly increasing numbers are all received, and received and lost together are
last − first + 1. -/
def Obligations.LossEstimatorExactOnIncreasingStreams : Prop :=
  ∀ (pd : PReg) (s : State) (q : Word) (qs : List Word) (ts : Word) (ptt call : Bool) (p : List Byte),
    paramsWellFormed s.params = true → p.length ≤ s.params.maxPayload →
    s.csr.haveLast = false → s.csr.pktsRecv = 0 → s.csr.pktsLost = 0 →
    (q :: qs).Pairwise (fun x y => x.toNat < y.toNat) →
    let t := receiveAll pd ((q :: qs).map (fun n => serializePacket n ts ptt call p)) s
    t.csr.pktsRecv = BitVec.ofNat 32 (qs.length + 1) ∧
    t.csr.rxLastSeq = (q :: qs).getLast (List.cons_ne_nil q qs) ∧
    t.csr.pktsRecv + t.csr.pktsLost = t.csr.rxLastSeq - q + 1

/-- What one end sends the other end receives (from R191, R195 and R203): the datagram that a successful `PKT_SEND` announces,
presented to a block of the same configuration, is accepted and delivers the same payload, number and flags. -/
def Obligations.SentDatagramIsReceivedUnchanged : Prop :=
  ∀ (pa pd : PReg) (ptt call : Bool) (s t r : State),
    paramsWellFormed s.params = true → r.params = s.params →
    exec (.pktSend pa ptt call) s = .next t → t.csr.err = .ok →
    ∃ d u, t.log = .txStrobe d :: s.log ∧ d = t.bytesAt txdBase t.csr.txdLen.toNat ∧
      exec (.pktRecv pd) (r.presented d) = .next u ∧
      u.csr.err = .ok ∧ u.payload pd = s.payload pa ∧ u.csr.rxLastSeq = s.csr.txSeq ∧
      u.csr.rxPtt = ptt ∧ u.csr.rxCall = call ∧ u.csr.haveLast = true

/-- The two directions are independent (from R50 and R271): with different payload buffers, a `PKT_SEND` and a `PKT_RECV` lead
to the same buffers, registers and events in either order, all but the completion code of the later one. -/
def Obligations.SendAndReceiveCommute : Prop :=
  ∀ (pa pd : PReg) (ptt call : Bool) (s a b c d : State), s.Inv → pa ≠ pd →
    exec (.pktSend pa ptt call) s = .next a → exec (.pktRecv pd) a = .next b →
    exec (.pktRecv pd) s = .next c → exec (.pktSend pa ptt call) c = .next d →
    b.mem = d.mem ∧ b.frames = d.frames ∧ b.codecState = d.codecState ∧
    { b.csr with err := .ok } = { d.csr with err := .ok } ∧ b.env = d.env ∧ b.log.Perm d.log

/-! ### Whole-machine rules -/

/-- Every step keeps the invariant: a legal configuration, registers of `N` samples, canonical memory inside the buffers,
lengths and results in range, and `LOSS_PCT` computed from the two counters. -/
def Obligations.StepKeepsTheInvariant : Prop :=
  ∀ s t : State, s.Inv → step s = .next t → t.Inv

/-- The invariant holds after reset, for every legal configuration. -/
def Obligations.ResetMeetsTheInvariant : Prop :=
  State.reset.Inv ∧ ∀ (p : Config.Params) (e : Nat), paramsWellFormed p = true → (State.resetWith p e).Inv

/-- R261: the reset value of every register, read over the bus where it can be read, of the flags and lengths, and of
the codec state; for every configuration. -/
def Obligations.ResetValues : Prop :=
  ∀ (p : Config.Params) (e : Nat),
    let s := State.resetWith p e
    (∀ a ∈ [0x04, 0x08, 0x18, 0x1C, 0x20, 0x24, 0x28, 0x2C, 0x30, 0x34, 0x38, 0x3C, 0x40, 0x44, 0x48, 0x4C, 0x50, 0x54,
      0x58, 0x5C], memRead s a 2 = some 0) ∧
    memRead s 0x0C 2 = some 1 ∧ memRead s 0x10 2 = some 31128 ∧ memRead s 0x14 2 = some 0x80008000 ∧
    s.csr.busy = false ∧ s.codecState = (Config.codecCore p).init

/-- Frame registers are written by their commands only (R22): a command changes no frame register but its destination. -/
def Obligations.OnlyTheDestinationFrameChanges : Prop :=
  ∀ (i : Instr) (s t : State) (k : FReg), exec i s = .next t → destination i ≠ some k →
    t.frames.get k = s.frames.get k

/-- R50: only `PKT_SEND` changes the transmit counters and the sequence number, only `PKT_RECV` the receive counters, the last
sequence number and `RX_INFO`, besides the two clearing commands; the host's writes change none of them. -/
def Obligations.TransportStatsOwnership : Prop :=
  (∀ (i : Instr) (s t : State), exec i s = .next t →
    ((∀ pa ptt call, i ≠ .pktSend pa ptt call) → i ≠ .pktInit → t.csr.txSeq = s.csr.txSeq ∧
      (i ≠ .statsClr → t.csr.pktsSent = s.csr.pktsSent ∧ t.csr.bytesSent = s.csr.bytesSent ∧
        t.csr.txFailCnt = s.csr.txFailCnt)) ∧
    ((∀ pd, i ≠ .pktRecv pd) → i ≠ .pktInit →
      t.csr.rxLastSeq = s.csr.rxLastSeq ∧ t.csr.rxPtt = s.csr.rxPtt ∧ t.csr.rxCall = s.csr.rxCall ∧
      t.csr.haveLast = s.csr.haveLast ∧
      (i ≠ .statsClr → t.csr.pktsRecv = s.csr.pktsRecv ∧ t.csr.pktsLost = s.csr.pktsLost ∧
        t.csr.bytesRecv = s.csr.bytesRecv ∧ t.csr.lossPct = s.csr.lossPct))) ∧
  ∀ (s t : State) (a : BitVec 16) (z : BitVec 2) (v : Word), memWrite s a z v = some t →
    t.csr.txSeq = s.csr.txSeq ∧ t.csr.pktsSent = s.csr.pktsSent ∧ t.csr.bytesSent = s.csr.bytesSent ∧
    t.csr.txFailCnt = s.csr.txFailCnt ∧ t.csr.rxLastSeq = s.csr.rxLastSeq ∧ t.csr.rxPtt = s.csr.rxPtt ∧
    t.csr.rxCall = s.csr.rxCall ∧ t.csr.haveLast = s.csr.haveLast ∧ t.csr.pktsRecv = s.csr.pktsRecv ∧
    t.csr.pktsLost = s.csr.pktsLost ∧ t.csr.bytesRecv = s.csr.bytesRecv ∧ t.csr.lossPct = s.csr.lossPct

/-- Hidden state and draws (from R58, R195 and R242). No step changes the codec state but the block's own step on an `ENC` or a
`DEC`, and the host's assertion of `rst`; a command word left in `CMDREG` by an earlier command changes nothing. No step samples
the two input ports but the block's step on a `PKT_SEND` within the size limit, which samples them once; the only other draws are
the unspecified tail of an `ENC` and the completion delay at a write of `CMD`. The count of draws is the model's own and tells a
sampling from none where the given samples are used up (log 6, 7, 12, 15). -/
def Obligations.HiddenStateAndPortsOwnership : Prop :=
  ∀ s t : State, step s = .next t →
    (t.codecState = s.codecState ∨
      (s.blockMoves = true ∧
        ((∃ pd fa, decode s.cmdReg = .ok (.enc pd fa)) ∨ ∃ fd pa loss, decode s.cmdReg = .ok (.dec fd pa loss))) ∨
      (s.blockMoves = false ∧ ∃ r, s.host.program = .rst :: r)) ∧
    ((t.env.ports = s.env.ports ∧ t.env.drawn = s.env.drawn) ∨
      (s.blockMoves = true ∧
        (∃ pa ptt call, decode s.cmdReg = .ok (.pktSend pa ptt call) ∧ s.plen pa ≤ s.params.maxPayload) ∧
        t.env.ports = s.env.ports.tail ∧ t.env.drawn = s.env.drawn + 1) ∨
      (s.blockMoves = true ∧ (∃ pd fa, decode s.cmdReg = .ok (.enc pd fa)) ∧
        t.env.ports = s.env.ports ∧ t.env.drawn = s.env.drawn + 1) ∨
      (s.blockMoves = false ∧ s.csr.busy = false ∧ (∃ w r, s.host.program = .write 0 2 w :: r) ∧
        t.env.ports = s.env.ports ∧ t.env.drawn = s.env.drawn + 1))

/-! ### The host bus -/

/-- R273: while a command is pending only a 4-byte read of `STATUS` is admitted, and it shows `BUSY`; every other transaction
gets `herr` and has no effect, a second command word included. -/
def Obligations.BusyAdmitsOnlyTheStatusRead : Prop :=
  ∀ (s : State) (a : BitVec 16) (z : BitVec 2) (v : Word), s.csr.busy = true →
    (a = 0x0004 ∧ z = 2 → ∃ w : Word, memRead s a z = some w ∧ w.getLsbD 0 = true) ∧
    (¬ (a = 0x0004 ∧ z = 2) → memRead s a z = none) ∧
    memWrite s a z v = none

/-- What a write that is not admitted leaves (R89, R233): the block as it was; the host goes on and has seen `herr`. The places
of the host and of the pending command's completion are the model's own (log 7, 8). -/
def Obligations.RefusedWriteChangesNothing : Prop :=
  ∀ (s : State) (a : BitVec 16) (z : BitVec 2) (v : Word) (r : List BusOp), s.csr.busy = false ∨ s.delay ≠ 0 →
    s.host.program = .write a z v :: r → memWrite s a z v = none →
    step s = .next { s with host := ⟨r, s.host.pos + 1⟩, delay := s.delay - 1, log := .writeAnswer true :: s.log }

/-- What a write that is admitted leaves (R83, R89): the state that `MemWrite` gives, and the host has seen the answer `herr` 0.
The host's place and the count of transactions left before a completion are the model's own (log 7, 8). -/
def Obligations.AdmittedWriteTakesEffect : Prop :=
  ∀ (s t : State) (a : BitVec 16) (z : BitVec 2) (v : Word) (r : List BusOp),
    s.host.program = .write a z v :: r → memWrite s a z v = some t →
    step s = .next { t with
      host := ⟨r, s.host.pos + 1⟩
      delay := if a = 0 ∧ z = 2 then t.delay else t.delay - 1
      log := .writeAnswer false :: s.log }

/-- R119: `WAIT` reads `STATUS` over and over until `BUSY` is 0. A step of it is one such read; it keeps the host at its place
while a command is pending and lets it go on when none is. The host's place and the count of transactions left before a
completion are the model's own (log 7, 8). -/
def Obligations.WaitPollsStatus : Prop :=
  ∀ (s : State) (r : List BusOp), s.host.program = .wait :: r →
    ∃ w : Word, memRead s 0x0004 2 = some w ∧ w.getLsbD 0 = s.csr.busy ∧
      (s.csr.busy = true → s.delay ≠ 0 →
        step s = .next { s with delay := s.delay - 1, log := .readAnswer false w :: s.log }) ∧
      (s.csr.busy = false →
        step s = .next { s with
          host := ⟨r, s.host.pos + 1⟩, delay := s.delay - 1, log := .readAnswer false w :: s.log })

/-- R83 and R81: a read changes no state of the block, only the host's place and what was observed. -/
def Obligations.ReadsChangeNothing : Prop :=
  ∀ (s : State) (a : BitVec 16) (z : BitVec 2) (r : List BusOp), s.csr.busy = false ∨ s.delay ≠ 0 →
    s.host.program = .read a z :: r →
    ∃ e, step s = .next { s with host := ⟨r, s.host.pos + 1⟩, delay := s.delay - 1, log := e :: s.log } ∧
      (memRead s a z = none → e = .readAnswer true 0) ∧ ∀ v, memRead s a z = some v → e = .readAnswer false v

/-- R77: a misaligned access gets `herr` and has no effect. -/
def Obligations.MisalignedAccessRefused : Prop :=
  ∀ (s : State) (a : BitVec 16) (v : Word),
    (a.toNat % 2 ≠ 0 → memRead s a 1 = none ∧ memWrite s a 1 v = none) ∧
    (a.toNat % 4 ≠ 0 → memRead s a 2 = none ∧ memWrite s a 2 v = none)

/-- R73: an access to an address that holds nothing gets `herr` and has no effect, whatever its width. -/
def Obligations.UnmappedAccessRefused : Prop :=
  ∀ (s : State) (a : BitVec 16) (z : BitVec 2) (v : Word),
    (0x0060 ≤ a.toNat ∧ a.toNat ≤ 0x0FFF) ∨ (0x3000 ≤ a.toNat ∧ a.toNat ≤ 0x3FFF) ∨ 0x4800 ≤ a.toNat →
    memRead s a z = none ∧ memWrite s a z v = none

/-- R71: sample `F[k][i]` is the two bytes at `FBASE(k) + 2i`, for reads and writes of an idle block, and an access that touches
the rest of the window gets `herr`. -/
def Obligations.FrameWindow : Prop :=
  ∀ (s : State) (k : FReg) (v : Word), s.Inv → s.csr.busy = false →
    let base := match k with | .f0 => 0x1000 | .f1 => 0x1800 | .f2 => 0x2000 | .f3 => 0x2800
    (∀ i, i < s.params.frameLen →
      memRead s (BitVec.ofNat 16 (base + 2 * i)) 1 = some ((s.sample k i).setWidth 32) ∧
      ∃ t, memWrite s (BitVec.ofNat 16 (base + 2 * i)) 1 v = some t ∧ t = { s with frames := t.frames } ∧
        ∀ j x, t.sample j x = if j = k ∧ x = i then v.setWidth 16 else s.sample j x) ∧
    ∀ (off n : Nat) (z : BitVec 2), widthOf z = some n → off < 0x800 → 2 * s.params.frameLen < off + n →
      memRead s (BitVec.ofNat 16 (base + off)) z = none ∧ memWrite s (BitVec.ofNat 16 (base + off)) z v = none

/-- R75 and R79 for the frame windows of an idle block: a 4-byte access reaches two samples that both lie below `N`, the one of
the lower index in bits 15:0, reads them and replaces them and nothing else; a 1-byte access gets `herr` everywhere. -/
def Obligations.FrameWordsAndBytes : Prop :=
  ∀ (s : State) (k : FReg) (v : Word), s.Inv → s.csr.busy = false →
    let base := match k with | .f0 => 0x1000 | .f1 => 0x1800 | .f2 => 0x2000 | .f3 => 0x2800
    (∀ j, 2 * j + 1 < s.params.frameLen →
      (∃ w : Word, memRead s (BitVec.ofNat 16 (base + 4 * j)) 2 = some w ∧
        w.toNat = (s.sample k (2 * j)).toNat + 65536 * (s.sample k (2 * j + 1)).toNat) ∧
      ∃ t, memWrite s (BitVec.ofNat 16 (base + 4 * j)) 2 v = some t ∧ t = { s with frames := t.frames } ∧
        ∀ l x, t.sample l x =
          if l = k ∧ x = 2 * j then v.extractLsb' 0 16
          else if l = k ∧ x = 2 * j + 1 then v.extractLsb' 16 16
          else s.sample l x) ∧
    ∀ off, off < 0x800 →
      memRead s (BitVec.ofNat 16 (base + off)) 0 = none ∧ memWrite s (BitVec.ofNat 16 (base + off)) 0 v = none

/-- R72, R75, R83 and R88 for the byte buffers of an idle block: an aligned read of 1, 2 or 4 bytes gives the little-endian value
of the bytes there, whatever the width they were written with; such a write to `P0`, `P1` or `RXD` stores the bytes in address
order, changes nothing else of the whole state, and is what a read of the same width then returns; `TXD` refuses writes. -/
def Obligations.BufferWindows : Prop :=
  ∀ (s : State) (a : BitVec 16) (z : BitVec 2) (n : Nat) (v : Word), s.csr.busy = false → widthOf z = some n →
    a.toNat % n = 0 → 0x4000 ≤ a.toNat → a.toNat < 0x4800 →
    (∃ w : Word, memRead s a z = some w ∧
      w.toNat = ∑ j ∈ Finset.range n, (s.byteAt (a.toNat + j)).toNat * 256 ^ j) ∧
    (¬ (0x4400 ≤ a.toNat ∧ a.toNat < 0x4600) → ∃ t, memWrite s a z v = some t ∧
      t = { s with mem := t.mem } ∧
      (∀ j, j < n → (t.byteAt (a.toNat + j)).toNat = v.toNat / 256 ^ j % 256) ∧
      (∀ x, x < a.toNat ∨ a.toNat + n ≤ x → t.byteAt x = s.byteAt x) ∧
      memRead t a z = some (BitVec.ofNat 32 (v.toNat % 256 ^ n))) ∧
    (0x4400 ≤ a.toNat ∧ a.toNat < 0x4600 → memWrite s a z v = none)

/-- What a read of each register returns (R27 to R48, R49): `STATUS` at any time, its code numbered as R230 numbers it, and
every other readable register of an idle block. Every value is below the register's width, so the reserved bits read zero. -/
def Obligations.RegisterReads : Prop :=
  ∀ s : State,
    let c := s.csr
    let code := match c.err with
      | .ok => 0 | .illegal => 1 | .tooBig => 2 | .short => 3 | .badSize => 4 | .codec => 5 | .link => 6
    (∃ w : Word, memRead s 0x04 2 = some w ∧ w.toNat = c.busy.toNat + 16 * code) ∧
    (c.busy = false → ∀ p ∈ ([(0x08, 2 * c.errFlags.toNat), (0x0C, c.limEn.toNat), (0x10, c.knee.toNat),
      (0x14, c.gainA.toNat + 65536 * c.gainB.toNat), (0x18, c.level.toNat), (0x1C, c.rmsOut.toNat), (0x20, c.txSeq.toNat),
      (0x24, c.rxLastSeq.toNat), (0x28, c.rxPtt.toNat + 2 * c.rxCall.toNat + 256 * c.haveLast.toNat),
      (0x2C, c.pktsSent.toNat), (0x30, c.pktsRecv.toNat), (0x34, c.pktsLost.toNat), (0x38, c.bytesSent.toNat),
      (0x3C, c.bytesRecv.toNat), (0x40, c.lossPct.toNat), (0x44, c.txFailCnt.toNat), (0x48, c.encErrCnt.toNat),
      (0x4C, c.decErrCnt.toNat), (0x50, c.plen0.toNat), (0x54, c.plen1.toNat), (0x58, c.txdLen.toNat),
      (0x5C, c.rxdLen.toNat)] : List (BitVec 16 × Nat)),
      ∃ w : Word, memRead s p.1 2 = some w ∧ w.toNat = p.2)

/-- What a write of a register of an idle block does (R28 to R32, R46, R48, R89): `ERRFLAGS` clears the bits written as 1, the
gains keep the value written, reserved bits read zero, a length above 512 is dropped, and a read-only register refuses the write.
Each write changes its own register and nothing else of the whole state. -/
def Obligations.RegisterWriteReadBack : Prop :=
  ∀ (s : State) (v : Word), s.csr.busy = false →
    (∃ t, memWrite s 0x08 2 v = some t ∧ t = { s with csr := { s.csr with errFlags := t.csr.errFlags } } ∧
      ∃ f, memRead s 0x08 2 = some f ∧ memRead t 0x08 2 = some (f &&& ~~~(v &&& 0x7E))) ∧
    (∃ t, memWrite s 0x0C 2 v = some t ∧ t = { s with csr := { s.csr with limEn := t.csr.limEn } } ∧
      memRead t 0x0C 2 = some (v &&& 1)) ∧
    (∃ t, memWrite s 0x10 2 v = some t ∧ t = { s with csr := { s.csr with knee := t.csr.knee } } ∧
      memRead t 0x10 2 = some (v &&& 0x7FFF)) ∧
    (∃ t, memWrite s 0x14 2 v = some t ∧
      t = { s with csr := { s.csr with gainA := t.csr.gainA, gainB := t.csr.gainB } } ∧ memRead t 0x14 2 = some v) ∧
    (∃ t, memWrite s 0x18 2 v = some t ∧ t = { s with csr := { s.csr with level := t.csr.level } } ∧
      memRead t 0x18 2 = some (v &&& 0xFFFF)) ∧
    (∃ t, memWrite s 0x50 2 v = some t ∧ t = { s with csr := { s.csr with plen0 := t.csr.plen0 } } ∧
      memRead t 0x50 2 = if v.toNat ≤ 512 then some v else memRead s 0x50 2) ∧
    (∃ t, memWrite s 0x54 2 v = some t ∧ t = { s with csr := { s.csr with plen1 := t.csr.plen1 } } ∧
      memRead t 0x54 2 = if v.toNat ≤ 512 then some v else memRead s 0x54 2) ∧
    (∃ t, memWrite s 0x5C 2 v = some t ∧ t = { s with csr := { s.csr with rxdLen := t.csr.rxdLen } } ∧
      memRead t 0x5C 2 = if v.toNat ≤ 512 then some v else memRead s 0x5C 2) ∧
    ∀ a ∈ [0x04, 0x1C, 0x20, 0x24, 0x28, 0x2C, 0x30, 0x34, 0x38, 0x3C, 0x40, 0x44, 0x48, 0x4C, 0x58],
      memWrite s a 2 v = none

/-- R26: a write of `CMD` with the block idle captures the word and sets `BUSY`, changing nothing else of the block; with the
block busy it has no effect; `CMD` cannot be read. How many host transactions come before the completion is the model's own
draw (log 7). -/
def Obligations.CmdWriteStartsTheCommand : Prop :=
  ∀ (s : State) (v : Word),
    memRead s 0 2 = none ∧
    (s.csr.busy = true → memWrite s 0 2 v = none) ∧
    (s.csr.busy = false → ∃ t, memWrite s 0 2 v = some t ∧
      t = { s with cmdReg := v, csr := { s.csr with busy := true }, delay := t.delay, env := t.env } ∧
      t.env.ports = s.env.ports ∧ t.env.epoch = s.env.epoch)

/-- R260: `rst` takes the reset state and abandons a pending command, with no event; only the host's place, the environment and
what was observed before remain, and the power-on contents are those of a new reset (log 11). -/
def Obligations.RstTakesTheResetState : Prop :=
  ∀ (s : State) (r : List BusOp), s.csr.busy = false ∨ s.delay ≠ 0 → s.host.program = .rst :: r →
    step s = .next { State.resetWith s.params (s.env.epoch + 1) with
      host := ⟨r, s.host.pos + 1⟩
      env := { s.env with epoch := s.env.epoch + 1 }
      log := s.log }

/-- A pending command is over (R272), in a run whose finite delay is the model's draw (log 7): after at most `delay + 1` steps
the block is idle again, whatever the host does meanwhile. The command has then completed, or an `rst` has abandoned it (R260). -/
def Obligations.PendingCommandCompletes : Prop :=
  ∀ s : State, s.csr.busy = true →
    ∃ (n : Nat) (t : State), n ≤ s.delay + 1 ∧ Host.Core.run Sys2Proof.core n s = .next t ∧ t.csr.busy = false
end

