-- ==== Sys2Proof/Laws/Arith.lean ====
section
/-! SUPPORT. The arithmetic of the commands: rounding, saturation, the limiter curve, the square root, sums of squares, byte
order, the loss percentage. -/

namespace Sys2Proof.Machine

theorem sample_range (x : Sample) : -32768 ≤ x.toInt ∧ x.toInt ≤ 32767 := by
  have h1 := BitVec.le_two_mul_toInt (x := x)
  have h2 := BitVec.two_mul_toInt_lt (x := x)
  omega

/-- `trunc0` is the quotient rounded toward zero (R16). -/
theorem trunc0_eq_tdiv (p : Int) (q : Nat) : trunc0 p q = p.tdiv q := by
  unfold trunc0
  split
  · next h => rw [Int.tdiv_eq_ediv_of_nonneg h]
  · next h =>
    have hp : 0 ≤ -p := by omega
    rw [← Int.tdiv_eq_ediv_of_nonneg hp, Int.neg_tdiv, neg_neg]

theorem sat16_range (v : Int) : -32768 ≤ sat16 v ∧ sat16 v ≤ 32767 := by
  unfold sat16; omega

theorem sat16_of_range {v : Int} (h1 : -32768 ≤ v) (h2 : v ≤ 32767) : sat16 v = v := by
  unfold sat16; omega

/-- A value in the 16-bit range is the value of its pattern (R13). -/
theorem toSample_toInt {v : Int} (h1 : -32768 ≤ v) (h2 : v ≤ 32767) : (toSample v).toInt = v := by
  rw [toSample, BitVec.toInt_ofInt, Int.bmod_def]
  simp only [Nat.reducePow, Nat.cast_ofNat]
  split <;> omega

/-- The value of a mixed sample (R152). -/
theorem mixSample_toInt (a b : Sample) (ga gb : Nat) :
    (mixSample a b ga gb).toInt = sat16 ((weightedSum a b ga gb).tdiv 32768) := by
  rw [mixSample, toSample_toInt (sat16_range _).1 (sat16_range _).2, trunc0_eq_tdiv]; rfl

theorem lim_of_le {x : Int} {t : Nat} (h : x.natAbs ≤ t) : lim x t = x := if_pos h

theorem lim_of_gt {x : Int} {t : Nat} (h : t < x.natAbs) :
    lim x t = x.sign * ((t + (x.natAbs - t) / 4 : Nat) : Int) := if_neg (by omega)

/-- The limiter curve in two linear pieces per sign. -/
theorem lim_cases (x : Int) (t : Nat) :
    (x.natAbs ≤ t ∧ lim x t = x) ∨
    ((t : Int) < x ∧ lim x t = t + (x - t) / 4) ∨
    (x < -(t : Int) ∧ lim x t = -(t + (-x - t) / 4)) := by
  by_cases h : x.natAbs ≤ t
  · exact .inl ⟨h, lim_of_le h⟩
  · rw [lim_of_gt (by omega)]
    rcases lt_or_ge x 0 with hx | hx
    · refine .inr (.inr ⟨by omega, ?_⟩)
      rw [Int.sign_eq_neg_one_of_neg hx]; omega
    · refine .inr (.inl ⟨by omega, ?_⟩)
      rw [Int.sign_eq_one_of_pos (by omega)]; omega

/-- The value of a limited sample: for every knee that `LIM_KNEE` can hold the result fits (R163). -/
theorem limSample_toInt (x : Sample) {t : Nat} (ht : t ≤ 32767) : (limSample x t).toInt = lim x.toInt t := by
  have hx := sample_range x
  refine toSample_toInt ?_ ?_ <;> rcases lim_cases x.toInt t with h | h | h <;> omega

theorem isqrtFrom_spec (b m r : Nat) (h1 : r * r ≤ m) (h2 : m < (r + 2 ^ b) * (r + 2 ^ b)) :
    isqrtFrom b m r * isqrtFrom b m r ≤ m ∧ m < (isqrtFrom b m r + 1) * (isqrtFrom b m r + 1) := by
  induction b generalizing r with
  | zero => exact ⟨h1, by simpa [isqrtFrom] using h2⟩
  | succ b ih =>
    rw [isqrtFrom]
    split
    · next h => exact ih _ h (by rwa [Nat.add_assoc, ← Nat.two_mul, ← Nat.pow_succ'])
    · next h => exact ih _ h1 (by omega)

/-- `isqrt m` is the largest `r` with `r × r ≤ m` (R17). -/
theorem isqrt_spec (m : Nat) : isqrt m * isqrt m ≤ m ∧ m < (isqrt m + 1) * (isqrt m + 1) := by
  refine isqrtFrom_spec _ _ _ (by omega) ?_
  rw [Nat.zero_add, ← Nat.pow_add]
  exact Nat.lt_of_lt_of_le Nat.lt_log2_self (Nat.pow_le_pow_right (by omega) (by omega))

theorem isqrt_le {m n : Nat} (h : m ≤ n * n) : isqrt m ≤ n := by
  have := (isqrt_spec m).1
  by_contra hc
  have : (n + 1) * (n + 1) ≤ isqrt m * isqrt m := Nat.mul_le_mul (by omega) (by omega)
  nlinarith

theorem sumSquares_le (f : Nat → Sample) (n : Nat) : sumSquares f n ≤ n * 2 ^ 30 := by
  induction n with
  | zero => simp [sumSquares]
  | succ n ih =>
    have h := sample_range (f n)
    have : (f n).toInt.natAbs * (f n).toInt.natAbs ≤ 32768 * 32768 := Nat.mul_le_mul (by omega) (by omega)
    rw [sumSquares]; omega

/-- The sum of R181 in the usual notation. -/
theorem sumSquares_eq_sum (f : Nat → Sample) (n : Nat) :
    (sumSquares f n : Int) = ∑ i ∈ Finset.range n, (f i).toInt * (f i).toInt := by
  induction n with
  | zero => simp [sumSquares]
  | succ n ih =>
    rw [sumSquares, Finset.sum_range_succ, ← ih, Nat.cast_add, ← Int.natAbs_mul_self (a := (f n).toInt)]

/-- The level meter's result is at most 0x8000 (R181, R182). -/
theorem rmsLevel_le (f : Nat → Sample) (n : Nat) : rmsLevel f n ≤ 32768 := by
  refine isqrt_le ?_
  rcases Nat.eq_zero_or_pos n with rfl | hn
  · simp
  · exact Nat.div_le_of_le_mul (by have := sumSquares_le f n; omega)

theorem clampUnit_le (g : BitVec 16) : clampUnit g ≤ 32768 := by unfold clampUnit; omega

@[simp] theorem leBytes_length (n v : Nat) : (leBytes n v).length = n := by
  induction n generalizing v with
  | zero => rfl
  | succ n ih => simp [leBytes, ih]

/-- Writing a number as bytes and reading it back keeps its low `n` bytes (R74, R75). -/
theorem leValue_leBytes (n v : Nat) : leValue (leBytes n v) = v % 256 ^ n := by
  induction n generalizing v with
  | zero => simp [leBytes, leValue, Nat.mod_one]
  | succ n ih =>
    rw [leBytes, leValue, ih, BitVec.toNat_ofNat, show 256 ^ (n + 1) = 256 * 256 ^ n from Nat.pow_succ', Nat.mod_mul]

theorem leBytes_getElem? {n j : Nat} (v : Nat) (h : j < n) :
    (leBytes n v)[j]? = some (BitVec.ofNat 8 (v / 256 ^ j)) := by
  induction n generalizing v j with
  | zero => omega
  | succ n ih =>
    cases j with
    | zero => simp [leBytes]
    | succ j =>
      rw [leBytes, List.getElem?_cons_succ, ih _ (by omega), Nat.div_div_eq_div_mul, ← Nat.pow_succ']

theorem u16le_toNat (b0 b1 : Byte) : (u16le b0 b1).toNat = b0.toNat + 256 * b1.toNat := by
  have := b0.isLt
  simp only [u16le, BitVec.toNat_append]
  rw [← Nat.shiftLeft_add_eq_or_of_lt this, Nat.shiftLeft_eq]; omega

theorem u32le_toNat (b0 b1 b2 b3 : Byte) :
    (u32le b0 b1 b2 b3).toNat = b0.toNat + 256 * b1.toNat + 65536 * b2.toNat + 16777216 * b3.toNat := by
  have h0 := b0.isLt; have h1 := b1.isLt; have h2 := b2.isLt
  simp only [u32le, BitVec.toNat_append]
  rw [← Nat.shiftLeft_add_eq_or_of_lt h0, ← Nat.shiftLeft_add_eq_or_of_lt h1, ← Nat.shiftLeft_add_eq_or_of_lt h2]
  simp only [Nat.shiftLeft_eq]; omega

/-- `U16LE` undoes `LE16` (R18). -/
theorem u16le_le16 (v : BitVec 16) : u16le (v.extractLsb' 0 8) (v.extractLsb' 8 8) = v := by
  apply BitVec.eq_of_toNat_eq
  rw [u16le_toNat]
  simp only [BitVec.extractLsb'_toNat, Nat.shiftRight_eq_div_pow]
  have := v.isLt
  omega

/-- `U32LE` undoes `LE32` (R18). -/
theorem u32le_le32 (v : Word) :
    u32le (v.extractLsb' 0 8) (v.extractLsb' 8 8) (v.extractLsb' 16 8) (v.extractLsb' 24 8) = v := by
  apply BitVec.eq_of_toNat_eq
  rw [u32le_toNat]
  simp only [BitVec.extractLsb'_toNat, Nat.shiftRight_eq_div_pow]
  have := v.isLt
  omega

/-- The loss percentage as a number: it always fits its 16 bits (R208). -/
theorem losspct_toNat (lost recv : Word) :
    (losspct lost recv).toNat = lost.toNat * 25600 / (recv.toNat + lost.toNat) := by
  simp only [losspct]
  split
  · next h => rw [h]; simp
  · next h =>
    rw [BitVec.toNat_ofNat, Nat.mod_eq_of_lt]
    refine Nat.lt_of_le_of_lt (Nat.div_le_of_le_mul (n := 25600) ?_) (by norm_num)
    exact Nat.mul_le_mul_right _ (by omega)

end Sys2Proof.Machine
end

