-- ==== Sys2Proof/Laws/Memory.lean ====
section
/-! SUPPORT. The byte memory: what a read returns after a write, that a write keeps the canonical form and the range of the
addresses, and that canonical memories with equal reads are equal. -/

namespace Sys2Proof.Machine

/-- The single step of a lookup. -/
theorem read?_cons (c : Host.Cell) (m : Memory) (a : Nat) :
    Memory.read? (c :: m) a = if c.1 = a then some c.2 else Memory.read? m a := rfl

theorem read?_append (m n : Memory) (a : Nat) :
    Memory.read? (m ++ n) a = (Memory.read? m a).or (Memory.read? n a) := by
  induction m with
  | nil => rfl
  | cons c m ih =>
    simp only [List.cons_append, read?_cons]
    split <;> simp_all

theorem read?_filter (p : Nat → Bool) (m : Memory) (a : Nat) :
    Memory.read? (m.filter (fun c => p c.1)) a = if p a then Memory.read? m a else none := by
  induction m with
  | nil => simp [Memory.read?]
  | cons c m ih =>
    by_cases hc : p c.1 <;> by_cases ha : c.1 = a <;> simp_all [read?_cons]

theorem read?_cellsAt (bs : List Byte) (a x : Nat) :
    Memory.read? (cellsAt a bs) x = if a ≤ x ∧ x < a + bs.length then bs[x - a]? else none := by
  induction bs generalizing a with
  | nil => simp [cellsAt, Memory.read?]
  | cons b bs ih =>
    simp only [cellsAt, read?_cons, ih, List.length_cons]
    rcases Nat.lt_trichotomy a x with h | h | h
    · have : x - a = (x - (a + 1)) + 1 := by omega
      rw [if_neg (by omega), this, List.getElem?_cons_succ]
      by_cases hx : x < a + (bs.length + 1)
      · rw [if_pos (by omega), if_pos (by omega)]
      · rw [if_neg (by omega), if_neg (by omega)]
    · subst h; simp
    · rw [if_neg (by omega), if_neg (by omega), if_neg (by omega)]

/-- Everything a write does, as reads see it: the written bytes where they were written, the old bytes elsewhere. -/
theorem read?_write (m : Memory) (a : Nat) (bs : List Byte) (x : Nat) :
    (m.write a bs).read? x = if a ≤ x ∧ x < a + bs.length then bs[x - a]? else m.read? x := by
  have hlo := read?_filter (fun y => decide (y < a)) m x
  have hhi := read?_filter (fun y => decide (a + bs.length ≤ y)) m x
  rw [Memory.write, read?_append, read?_append, hlo, hhi, read?_cellsAt]
  by_cases h1 : x < a
  · simp [h1, Nat.not_le.mpr h1, show ¬ a + bs.length ≤ x by omega]
  · by_cases h2 : x < a + bs.length
    · have hlen : x - a < bs.length := by omega
      simp [h1, show a ≤ x by omega, h2, List.getElem?_eq_getElem hlen]
    · simp [h1, h2, show a + bs.length ≤ x by omega]

theorem mem_cellsAt {bs : List Byte} {a : Nat} {c : Host.Cell} (h : c ∈ cellsAt a bs) :
    a ≤ c.1 ∧ c.1 < a + bs.length := by
  induction bs generalizing a with
  | nil => simp [cellsAt] at h
  | cons b bs ih =>
    simp only [cellsAt, List.mem_cons] at h
    rcases h with rfl | h
    · simp
    · have := ih h
      simp only [List.length_cons]
      omega

theorem cellsAt_wf (bs : List Byte) (a : Nat) : Memory.wf (cellsAt a bs) := by
  induction bs generalizing a with
  | nil => exact List.Pairwise.nil
  | cons b bs ih =>
    refine List.pairwise_cons.mpr ⟨fun c hc => ?_, ih (a + 1)⟩
    have := mem_cellsAt hc
    simp only
    omega

/-- A write keeps the canonical form. -/
theorem write_wf {m : Memory} (h : m.wf) (a : Nat) (bs : List Byte) : (m.write a bs).wf := by
  refine List.pairwise_append.mpr ⟨List.pairwise_append.mpr ⟨h.filter _, cellsAt_wf bs a, ?_⟩, h.filter _, ?_⟩
  · intro c hc d hd
    have hc := of_decide_eq_true (List.mem_filter.mp hc).2
    have hd := mem_cellsAt hd
    omega
  · intro c hc d hd
    have hd := of_decide_eq_true (List.mem_filter.mp hd).2
    rcases List.mem_append.mp hc with hc | hc
    · have hc := of_decide_eq_true (List.mem_filter.mp hc).2
      omega
    · have hc := mem_cellsAt hc
      omega

/-- A write lists no address but the old ones and those it writes. -/
theorem mem_write {m : Memory} {a : Nat} {bs : List Byte} {c : Host.Cell} (h : c ∈ m.write a bs) :
    c ∈ m ∨ a ≤ c.1 ∧ c.1 < a + bs.length := by
  simp only [Memory.write, List.mem_append] at h
  rcases h with (h | h) | h
  · exact .inl (List.mem_filter.mp h).1
  · exact .inr (mem_cellsAt h)
  · exact .inl (List.mem_filter.mp h).1

theorem write_range {m : Memory} {lo hi a : Nat} {bs : List Byte} (h : ∀ c ∈ m, lo ≤ c.1 ∧ c.1 < hi) (ha : lo ≤ a)
    (hb : a + bs.length ≤ hi) : ∀ c ∈ m.write a bs, lo ≤ c.1 ∧ c.1 < hi := by
  intro c hc
  rcases mem_write hc with hc | hc
  · exact h c hc
  · omega

theorem read?_eq_none_of_lt {m : Memory} {a : Nat} (h : ∀ c ∈ m, a < c.1) : m.read? a = none := by
  induction m with
  | nil => rfl
  | cons c m ih =>
    have hc := h c (List.mem_cons_self ..)
    rw [read?_cons, if_neg (by omega)]
    exact ih (fun d hd => h d (List.mem_cons_of_mem _ hd))

/-- Equal memories are equal lists: two canonical memories that answer every read alike are the same. -/
theorem wf_ext {m n : Memory} (hm : m.wf) (hn : n.wf) (h : ∀ a, m.read? a = n.read? a) : m = n := by
  induction m generalizing n with
  | nil =>
    cases n with
    | nil => rfl
    | cons d n => have := h d.1; simp [Memory.read?] at this
  | cons c m ih =>
    obtain ⟨hc, hm'⟩ := List.pairwise_cons.mp hm
    cases n with
    | nil => have := h c.1; simp [Memory.read?] at this
    | cons d n =>
      obtain ⟨hd, hn'⟩ := List.pairwise_cons.mp hn
      have hkey : c.1 = d.1 := by
        rcases Nat.lt_trichotomy c.1 d.1 with hlt | heq | hlt
        · have hx := h c.1
          rw [read?_cons, if_pos rfl, read?_cons, if_neg (by omega),
            read?_eq_none_of_lt (fun e he => Nat.lt_trans hlt (hd e he))] at hx
          cases hx
        · exact heq
        · have hx := h d.1
          rw [read?_cons, if_neg (by omega), read?_cons, if_pos rfl,
            read?_eq_none_of_lt (fun e he => Nat.lt_trans hlt (hc e he))] at hx
          cases hx
      have hval : c.2 = d.2 := by
        have hx := h c.1
        rw [read?_cons, if_pos rfl, read?_cons, if_pos hkey.symm] at hx
        exact Option.some.inj hx
      have htail : m = n := by
        refine ih hm' hn' (fun a => ?_)
        by_cases ha : c.1 = a
        · subst ha
          rw [read?_eq_none_of_lt hc, read?_eq_none_of_lt (fun e he => by have := hd e he; omega)]
        · have hx := h a
          rwa [read?_cons, if_neg ha, read?_cons, if_neg (by omega)] at hx
      rw [htail, Prod.ext hkey hval]

/-- Writes of ranges that do not meet can be done in either order. -/
theorem write_comm {m : Memory} (hm : m.wf) (a b : Nat) (x y : List Byte)
    (h : a + x.length ≤ b ∨ b + y.length ≤ a) : (m.write a x).write b y = (m.write b y).write a x := by
  refine wf_ext (write_wf (write_wf hm _ _) _ _) (write_wf (write_wf hm _ _) _ _) (fun z => ?_)
  simp only [read?_write]
  split <;> split <;> first | rfl | omega

end Sys2Proof.Machine
end

