-- ==== Sys2Proof/Laws/State.lean ====
section
/-! SUPPORT. One lemma per field per update of State, true by `rfl`, and the fields of a CSR block whose length register was
set, so that later proofs never unfold a record update. -/

namespace Sys2Proof.Machine

variable (s : State)

@[simp] theorem writeBytes_params (a : Nat) (bs : List Byte) : (s.writeBytes a bs).params = s.params := rfl
@[simp] theorem writeBytes_frames (a : Nat) (bs : List Byte) : (s.writeBytes a bs).frames = s.frames := rfl
@[simp] theorem writeBytes_mem (a : Nat) (bs : List Byte) : (s.writeBytes a bs).mem = s.mem.write a bs := rfl
@[simp] theorem writeBytes_csr (a : Nat) (bs : List Byte) : (s.writeBytes a bs).csr = s.csr := rfl
@[simp] theorem writeBytes_codecState (a : Nat) (bs : List Byte) : (s.writeBytes a bs).codecState = s.codecState := rfl
@[simp] theorem writeBytes_cmdReg (a : Nat) (bs : List Byte) : (s.writeBytes a bs).cmdReg = s.cmdReg := rfl
@[simp] theorem writeBytes_delay (a : Nat) (bs : List Byte) : (s.writeBytes a bs).delay = s.delay := rfl
@[simp] theorem writeBytes_host (a : Nat) (bs : List Byte) : (s.writeBytes a bs).host = s.host := rfl
@[simp] theorem writeBytes_env (a : Nat) (bs : List Byte) : (s.writeBytes a bs).env = s.env := rfl
@[simp] theorem writeBytes_log (a : Nat) (bs : List Byte) : (s.writeBytes a bs).log = s.log := rfl

@[simp] theorem setFrame_params (k : FReg) (f : Config.Frame s.params) : (s.setFrame k f).params = s.params := rfl
@[simp] theorem setFrame_frames (k : FReg) (f : Config.Frame s.params) : (s.setFrame k f).frames = s.frames.set k (List.ofFn f) := rfl
@[simp] theorem setFrame_mem (k : FReg) (f : Config.Frame s.params) : (s.setFrame k f).mem = s.mem := rfl
@[simp] theorem setFrame_csr (k : FReg) (f : Config.Frame s.params) : (s.setFrame k f).csr = s.csr := rfl
@[simp] theorem setFrame_codecState (k : FReg) (f : Config.Frame s.params) : (s.setFrame k f).codecState = s.codecState := rfl
@[simp] theorem setFrame_cmdReg (k : FReg) (f : Config.Frame s.params) : (s.setFrame k f).cmdReg = s.cmdReg := rfl
@[simp] theorem setFrame_delay (k : FReg) (f : Config.Frame s.params) : (s.setFrame k f).delay = s.delay := rfl
@[simp] theorem setFrame_host (k : FReg) (f : Config.Frame s.params) : (s.setFrame k f).host = s.host := rfl
@[simp] theorem setFrame_env (k : FReg) (f : Config.Frame s.params) : (s.setFrame k f).env = s.env := rfl
@[simp] theorem setFrame_log (k : FReg) (f : Config.Frame s.params) : (s.setFrame k f).log = s.log := rfl

@[simp] theorem setSample_params (k : FReg) (i : Nat) (v : Sample) : (s.setSample k i v).params = s.params := rfl
@[simp] theorem setSample_frames (k : FReg) (i : Nat) (v : Sample) : (s.setSample k i v).frames = s.frames.set k ((s.frames.get k).set i v) := rfl
@[simp] theorem setSample_mem (k : FReg) (i : Nat) (v : Sample) : (s.setSample k i v).mem = s.mem := rfl
@[simp] theorem setSample_csr (k : FReg) (i : Nat) (v : Sample) : (s.setSample k i v).csr = s.csr := rfl
@[simp] theorem setSample_codecState (k : FReg) (i : Nat) (v : Sample) : (s.setSample k i v).codecState = s.codecState := rfl
@[simp] theorem setSample_cmdReg (k : FReg) (i : Nat) (v : Sample) : (s.setSample k i v).cmdReg = s.cmdReg := rfl
@[simp] theorem setSample_delay (k : FReg) (i : Nat) (v : Sample) : (s.setSample k i v).delay = s.delay := rfl
@[simp] theorem setSample_host (k : FReg) (i : Nat) (v : Sample) : (s.setSample k i v).host = s.host := rfl
@[simp] theorem setSample_env (k : FReg) (i : Nat) (v : Sample) : (s.setSample k i v).env = s.env := rfl
@[simp] theorem setSample_log (k : FReg) (i : Nat) (v : Sample) : (s.setSample k i v).log = s.log := rfl

@[simp] theorem portsSampled_params : (s.portsSampled).params = s.params := rfl
@[simp] theorem portsSampled_frames : (s.portsSampled).frames = s.frames := rfl
@[simp] theorem portsSampled_mem : (s.portsSampled).mem = s.mem := rfl
@[simp] theorem portsSampled_csr : (s.portsSampled).csr = s.csr := rfl
@[simp] theorem portsSampled_codecState : (s.portsSampled).codecState = s.codecState := rfl
@[simp] theorem portsSampled_cmdReg : (s.portsSampled).cmdReg = s.cmdReg := rfl
@[simp] theorem portsSampled_delay : (s.portsSampled).delay = s.delay := rfl
@[simp] theorem portsSampled_host : (s.portsSampled).host = s.host := rfl
@[simp] theorem portsSampled_env : (s.portsSampled).env = { s.env with ports := s.env.ports.tail, drawn := s.env.drawn + 1 } := rfl
@[simp] theorem portsSampled_log : (s.portsSampled).log = s.log := rfl

@[simp] theorem drawTaken_params : (s.drawTaken).params = s.params := rfl
@[simp] theorem drawTaken_frames : (s.drawTaken).frames = s.frames := rfl
@[simp] theorem drawTaken_mem : (s.drawTaken).mem = s.mem := rfl
@[simp] theorem drawTaken_csr : (s.drawTaken).csr = s.csr := rfl
@[simp] theorem drawTaken_codecState : (s.drawTaken).codecState = s.codecState := rfl
@[simp] theorem drawTaken_cmdReg : (s.drawTaken).cmdReg = s.cmdReg := rfl
@[simp] theorem drawTaken_delay : (s.drawTaken).delay = s.delay := rfl
@[simp] theorem drawTaken_host : (s.drawTaken).host = s.host := rfl
@[simp] theorem drawTaken_env : (s.drawTaken).env = { s.env with drawn := s.env.drawn + 1 } := rfl
@[simp] theorem drawTaken_log : (s.drawTaken).log = s.log := rfl

@[simp] theorem emit_params (e : Event) : (s.emit e).params = s.params := rfl
@[simp] theorem emit_frames (e : Event) : (s.emit e).frames = s.frames := rfl
@[simp] theorem emit_mem (e : Event) : (s.emit e).mem = s.mem := rfl
@[simp] theorem emit_csr (e : Event) : (s.emit e).csr = s.csr := rfl
@[simp] theorem emit_codecState (e : Event) : (s.emit e).codecState = s.codecState := rfl
@[simp] theorem emit_cmdReg (e : Event) : (s.emit e).cmdReg = s.cmdReg := rfl
@[simp] theorem emit_delay (e : Event) : (s.emit e).delay = s.delay := rfl
@[simp] theorem emit_host (e : Event) : (s.emit e).host = s.host := rfl
@[simp] theorem emit_env (e : Event) : (s.emit e).env = s.env := rfl
@[simp] theorem emit_log (e : Event) : (s.emit e).log = e :: s.log := rfl

@[simp] theorem done_params : (s.done).params = s.params := rfl
@[simp] theorem done_frames : (s.done).frames = s.frames := rfl
@[simp] theorem done_mem : (s.done).mem = s.mem := rfl
@[simp] theorem done_csr : (s.done).csr = { s.csr with busy := false, err := .ok } := rfl
@[simp] theorem done_codecState : (s.done).codecState = s.codecState := rfl
@[simp] theorem done_cmdReg : (s.done).cmdReg = s.cmdReg := rfl
@[simp] theorem done_delay : (s.done).delay = s.delay := rfl
@[simp] theorem done_host : (s.done).host = s.host := rfl
@[simp] theorem done_env : (s.done).env = s.env := rfl
@[simp] theorem done_log : (s.done).log = s.log := rfl

@[simp] theorem raise_params (c : CompletionCode) : (s.raise c).params = s.params := rfl
@[simp] theorem raise_frames (c : CompletionCode) : (s.raise c).frames = s.frames := rfl
@[simp] theorem raise_mem (c : CompletionCode) : (s.raise c).mem = s.mem := rfl
@[simp] theorem raise_csr (c : CompletionCode) : (s.raise c).csr = { s.csr with busy := false, err := c, errFlags := s.csr.errFlags ||| errFlagOf c } := rfl
@[simp] theorem raise_codecState (c : CompletionCode) : (s.raise c).codecState = s.codecState := rfl
@[simp] theorem raise_cmdReg (c : CompletionCode) : (s.raise c).cmdReg = s.cmdReg := rfl
@[simp] theorem raise_delay (c : CompletionCode) : (s.raise c).delay = s.delay := rfl
@[simp] theorem raise_host (c : CompletionCode) : (s.raise c).host = s.host := rfl
@[simp] theorem raise_env (c : CompletionCode) : (s.raise c).env = s.env := rfl
@[simp] theorem raise_log (c : CompletionCode) : (s.raise c).log = s.log := rfl

@[simp] theorem startCommand_params (w : Word) : (s.startCommand w).params = s.params := rfl
@[simp] theorem startCommand_frames (w : Word) : (s.startCommand w).frames = s.frames := rfl
@[simp] theorem startCommand_mem (w : Word) : (s.startCommand w).mem = s.mem := rfl
@[simp] theorem startCommand_csr (w : Word) : (s.startCommand w).csr = { s.csr with busy := true } := rfl
@[simp] theorem startCommand_codecState (w : Word) : (s.startCommand w).codecState = s.codecState := rfl
@[simp] theorem startCommand_cmdReg (w : Word) : (s.startCommand w).cmdReg = w := rfl
@[simp] theorem startCommand_delay (w : Word) : (s.startCommand w).delay = s.nextDelay := rfl
@[simp] theorem startCommand_host (w : Word) : (s.startCommand w).host = s.host := rfl
@[simp] theorem startCommand_env (w : Word) : (s.startCommand w).env = { s.env with delays := s.env.delays.tail, drawn := s.env.drawn + 1 } := rfl
@[simp] theorem startCommand_log (w : Word) : (s.startCommand w).log = s.log := rfl

@[simp] theorem setPlen_params (k : PReg) (n : Nat) : (s.setPlen k n).params = s.params := rfl
@[simp] theorem setPlen_frames (k : PReg) (n : Nat) : (s.setPlen k n).frames = s.frames := rfl
@[simp] theorem setPlen_mem (k : PReg) (n : Nat) : (s.setPlen k n).mem = s.mem := rfl
@[simp] theorem setPlen_csr (k : PReg) (n : Nat) : (s.setPlen k n).csr = s.csr.setPlen k (BitVec.ofNat 10 n) := rfl
@[simp] theorem setPlen_codecState (k : PReg) (n : Nat) : (s.setPlen k n).codecState = s.codecState := rfl
@[simp] theorem setPlen_cmdReg (k : PReg) (n : Nat) : (s.setPlen k n).cmdReg = s.cmdReg := rfl
@[simp] theorem setPlen_delay (k : PReg) (n : Nat) : (s.setPlen k n).delay = s.delay := rfl
@[simp] theorem setPlen_host (k : PReg) (n : Nat) : (s.setPlen k n).host = s.host := rfl
@[simp] theorem setPlen_env (k : PReg) (n : Nat) : (s.setPlen k n).env = s.env := rfl
@[simp] theorem setPlen_log (k : PReg) (n : Nat) : (s.setPlen k n).log = s.log := rfl

@[simp] theorem consume_params (r : List BusOp) : (s.consume r).params = s.params := rfl
@[simp] theorem consume_frames (r : List BusOp) : (s.consume r).frames = s.frames := rfl
@[simp] theorem consume_mem (r : List BusOp) : (s.consume r).mem = s.mem := rfl
@[simp] theorem consume_csr (r : List BusOp) : (s.consume r).csr = s.csr := rfl
@[simp] theorem consume_codecState (r : List BusOp) : (s.consume r).codecState = s.codecState := rfl
@[simp] theorem consume_cmdReg (r : List BusOp) : (s.consume r).cmdReg = s.cmdReg := rfl
@[simp] theorem consume_delay (r : List BusOp) : (s.consume r).delay = s.delay - 1 := rfl
@[simp] theorem consume_host (r : List BusOp) : (s.consume r).host = ⟨r, s.host.pos + 1⟩ := rfl
@[simp] theorem consume_env (r : List BusOp) : (s.consume r).env = s.env := rfl
@[simp] theorem consume_log (r : List BusOp) : (s.consume r).log = s.log := rfl

@[simp] theorem resetBlock_params : (s.resetBlock).params = s.params := rfl
@[simp] theorem resetBlock_frames : (s.resetBlock).frames = (State.resetWith s.params (s.env.epoch + 1)).frames := rfl
@[simp] theorem resetBlock_mem : (s.resetBlock).mem = [] := rfl
@[simp] theorem resetBlock_csr : (s.resetBlock).csr = Csrs.reset := rfl
@[simp] theorem resetBlock_codecState : (s.resetBlock).codecState = (Config.codecCore s.params).init := rfl
@[simp] theorem resetBlock_cmdReg : (s.resetBlock).cmdReg = 0 := rfl
@[simp] theorem resetBlock_delay : (s.resetBlock).delay = 0 := rfl
@[simp] theorem resetBlock_host : (s.resetBlock).host = s.host := rfl
@[simp] theorem resetBlock_env : (s.resetBlock).env = { s.env with epoch := s.env.epoch + 1 } := rfl
@[simp] theorem resetBlock_log : (s.resetBlock).log = s.log := rfl

@[simp] theorem withFetchWord_params (n w : Nat) : (s.withFetchWord n w).params = s.params := rfl
@[simp] theorem withFetchWord_frames (n w : Nat) : (s.withFetchWord n w).frames = s.frames := rfl
@[simp] theorem withFetchWord_mem (n w : Nat) : (s.withFetchWord n w).mem = s.mem := rfl
@[simp] theorem withFetchWord_csr (n w : Nat) : (s.withFetchWord n w).csr = { s.csr with busy := true } := rfl
@[simp] theorem withFetchWord_codecState (n w : Nat) : (s.withFetchWord n w).codecState = s.codecState := rfl
@[simp] theorem withFetchWord_cmdReg (n w : Nat) : (s.withFetchWord n w).cmdReg = BitVec.ofNat 32 (w % 2 ^ n) := rfl
@[simp] theorem withFetchWord_delay (n w : Nat) : (s.withFetchWord n w).delay = 0 := rfl
@[simp] theorem withFetchWord_host (n w : Nat) : (s.withFetchWord n w).host = s.host := rfl
@[simp] theorem withFetchWord_env (n w : Nat) : (s.withFetchWord n w).env = s.env := rfl
@[simp] theorem withFetchWord_log (n w : Nat) : (s.withFetchWord n w).log = s.log := rfl

variable (c : Csrs) (k : PReg) (n : BitVec 10)

@[simp] theorem setPlen_csr_busy : (c.setPlen k n).busy = c.busy := by cases k <;> rfl
@[simp] theorem setPlen_csr_err : (c.setPlen k n).err = c.err := by cases k <;> rfl
@[simp] theorem setPlen_csr_errFlags : (c.setPlen k n).errFlags = c.errFlags := by cases k <;> rfl
@[simp] theorem setPlen_csr_limEn : (c.setPlen k n).limEn = c.limEn := by cases k <;> rfl
@[simp] theorem setPlen_csr_knee : (c.setPlen k n).knee = c.knee := by cases k <;> rfl
@[simp] theorem setPlen_csr_gainA : (c.setPlen k n).gainA = c.gainA := by cases k <;> rfl
@[simp] theorem setPlen_csr_gainB : (c.setPlen k n).gainB = c.gainB := by cases k <;> rfl
@[simp] theorem setPlen_csr_level : (c.setPlen k n).level = c.level := by cases k <;> rfl
@[simp] theorem setPlen_csr_rmsOut : (c.setPlen k n).rmsOut = c.rmsOut := by cases k <;> rfl
@[simp] theorem setPlen_csr_txSeq : (c.setPlen k n).txSeq = c.txSeq := by cases k <;> rfl
@[simp] theorem setPlen_csr_rxLastSeq : (c.setPlen k n).rxLastSeq = c.rxLastSeq := by cases k <;> rfl
@[simp] theorem setPlen_csr_rxPtt : (c.setPlen k n).rxPtt = c.rxPtt := by cases k <;> rfl
@[simp] theorem setPlen_csr_rxCall : (c.setPlen k n).rxCall = c.rxCall := by cases k <;> rfl
@[simp] theorem setPlen_csr_haveLast : (c.setPlen k n).haveLast = c.haveLast := by cases k <;> rfl
@[simp] theorem setPlen_csr_pktsSent : (c.setPlen k n).pktsSent = c.pktsSent := by cases k <;> rfl
@[simp] theorem setPlen_csr_pktsRecv : (c.setPlen k n).pktsRecv = c.pktsRecv := by cases k <;> rfl
@[simp] theorem setPlen_csr_pktsLost : (c.setPlen k n).pktsLost = c.pktsLost := by cases k <;> rfl
@[simp] theorem setPlen_csr_bytesSent : (c.setPlen k n).bytesSent = c.bytesSent := by cases k <;> rfl
@[simp] theorem setPlen_csr_bytesRecv : (c.setPlen k n).bytesRecv = c.bytesRecv := by cases k <;> rfl
@[simp] theorem setPlen_csr_lossPct : (c.setPlen k n).lossPct = c.lossPct := by cases k <;> rfl
@[simp] theorem setPlen_csr_txFailCnt : (c.setPlen k n).txFailCnt = c.txFailCnt := by cases k <;> rfl
@[simp] theorem setPlen_csr_encErrCnt : (c.setPlen k n).encErrCnt = c.encErrCnt := by cases k <;> rfl
@[simp] theorem setPlen_csr_decErrCnt : (c.setPlen k n).decErrCnt = c.decErrCnt := by cases k <;> rfl
@[simp] theorem setPlen_csr_txdLen : (c.setPlen k n).txdLen = c.txdLen := by cases k <;> rfl
@[simp] theorem setPlen_csr_rxdLen : (c.setPlen k n).rxdLen = c.rxdLen := by cases k <;> rfl

@[simp] theorem plen_setPlen_same : (c.setPlen k n).plen k = n := by cases k <;> rfl

theorem plen_setPlen (j : PReg) : (c.setPlen k n).plen j = if j = k then n else c.plen j := by
  cases k <;> cases j <;> rfl

@[simp] theorem frames_get_set_same (f : Frames) (k : FReg) (x : List Sample) : (f.set k x).get k = x := by
  cases k <;> rfl

theorem frames_get_set (f : Frames) (k j : FReg) (x : List Sample) :
    (f.set k x).get j = if j = k then x else f.get j := by
  cases k <;> cases j <;> rfl

theorem frames_get_set_other (f : Frames) (k j : FReg) (x : List Sample) (h : j ≠ k) : (f.set k x).get j = f.get j := by
  simp [frames_get_set, h]

@[simp] theorem resetWith_params (p : Config.Params) (e : Nat) : (State.resetWith p e).params = p := rfl

@[simp] theorem resetWith_csr (p : Config.Params) (e : Nat) : (State.resetWith p e).csr = Csrs.reset := rfl

@[simp] theorem resetWith_mem (p : Config.Params) (e : Nat) : (State.resetWith p e).mem = [] := rfl

/-- After reset every frame register holds `N` samples. -/
theorem resetWith_frame_length (p : Config.Params) (e : Nat) (k : FReg) :
    ((State.resetWith p e).frames.get k).length = p.frameLen := by
  cases k <;> simp [State.resetWith, Frames.get, powerOnFrame]

end Sys2Proof.Machine
end

