-- ==== Sys2Proof/Laws/Operations.lean ====
section
/-! SUPPORT. What each shared operation does, said once: bytes and frame samples after a write, the datagram's header bytes,
and the possible results of every meaning, of a bus write and of a step. -/

namespace Sys2Proof.Machine

/-! ### Bytes -/

/-- A buffer byte after a write (R83): the byte written there, or the old one. -/
theorem byteAt_writeBytes (s : State) (a : Nat) (bs : List Byte) (x : Nat) :
    (s.writeBytes a bs).byteAt x = if h : a ≤ x ∧ x < a + bs.length then bs[x - a]'(by omega) else s.byteAt x := by
  simp only [State.byteAt, writeBytes_mem, writeBytes_env, read?_write]
  split
  · next h => rw [List.getElem?_eq_getElem (by omega), Option.getD_some]
  · rfl

theorem byteAt_writeBytes_other (s : State) {a : Nat} {bs : List Byte} {x : Nat} (h : x < a ∨ a + bs.length ≤ x) :
    (s.writeBytes a bs).byteAt x = s.byteAt x := by
  rw [byteAt_writeBytes, dif_neg (by omega)]

theorem byteAt_writeBytes_at (s : State) (a : Nat) {bs : List Byte} {j : Nat} (h : j < bs.length) :
    (s.writeBytes a bs).byteAt (a + j) = bs[j] := by
  rw [byteAt_writeBytes, dif_pos (by omega)]
  congr 1; omega

/-- A buffer byte depends on the memory and the reset epoch only. -/
theorem byteAt_congr {s t : State} (hm : t.mem = s.mem) (he : t.env.epoch = s.env.epoch) (a : Nat) :
    t.byteAt a = s.byteAt a := by
  simp only [State.byteAt, hm, he]

@[simp] theorem bytesAt_length (s : State) (a n : Nat) : (s.bytesAt a n).length = n := by simp [State.bytesAt]

@[simp] theorem payload_length (s : State) (k : PReg) : (s.payload k).length = s.plen k := bytesAt_length ..

@[simp] theorem bytesAt_getElem (s : State) (a n j : Nat) (h : j < (s.bytesAt a n).length) :
    (s.bytesAt a n)[j] = s.byteAt (a + j) := by simp [State.bytesAt]

/-- Reading back a range that was just written. -/
theorem bytesAt_eq_of_byteAt {s : State} {a : Nat} {bs : List Byte}
    (h : ∀ (j : Nat) (hj : j < bs.length), s.byteAt (a + j) = bs[j]) : s.bytesAt a bs.length = bs := by
  refine List.ext_getElem (by simp) (fun j h1 h2 => ?_)
  rw [bytesAt_getElem, h j h2]

/-- A range of bytes depends on the bytes in it only. -/
theorem bytesAt_congr {s t : State} {a n : Nat} (h : ∀ x, a ≤ x → x < a + n → t.byteAt x = s.byteAt x) :
    t.bytesAt a n = s.bytesAt a n := by
  refine List.ext_getElem (by simp) (fun j h1 h2 => ?_)
  simp only [bytesAt_length] at h1
  rw [bytesAt_getElem, bytesAt_getElem, h _ (by omega) (by omega)]

/-! ### Frame registers -/

/-- Sample `i` of a frame register after a frame was written: all `N` samples of the destination are the new ones. -/
theorem sample_setFrame_same (s : State) (k : FReg) (f : Config.Frame s.params) {i : Nat} (h : i < s.params.frameLen) :
    (s.setFrame k f).sample k i = f ⟨i, h⟩ := by
  simp [State.sample, h]

theorem sample_setFrame_other (s : State) {k j : FReg} (f : Config.Frame s.params) (i : Nat) (h : j ≠ k) :
    (s.setFrame k f).sample j i = s.sample j i := by
  simp [State.sample, frames_get_set_other _ _ _ _ h]

theorem ofFn_getElem? {n : Nat} (f : Fin n → Sample) {i : Nat} (h : i < n) : (List.ofFn f)[i]? = some (f ⟨i, h⟩) := by
  simp [h]

/-- A sample after one sample was written, in a state whose frame registers hold `N` samples. -/
theorem sample_setSample (s : State) (k j : FReg) {i : Nat} (x : Nat) (v : Sample) (h : i < (s.frames.get k).length) :
    (s.setSample k i v).sample j x = if j = k ∧ x = i then v else s.sample j x := by
  simp only [State.sample, setSample_frames, frames_get_set]
  by_cases hj : j = k
  · subst hj
    by_cases hx : x = i
    · subst hx; simp [h]
    · simp [hx, List.getElem?_set_ne (Ne.symm hx)]
  · simp [hj]

/-- Writing a frame or a sample keeps every register's length. -/
theorem setFrame_length (s : State) (k j : FReg) (f : Config.Frame s.params)
    (h : ∀ j, (s.frames.get j).length = s.params.frameLen) :
    ((s.setFrame k f).frames.get j).length = s.params.frameLen := by
  rw [setFrame_frames, frames_get_set]; split <;> simp [h]

theorem setSample_length (s : State) (k j : FReg) (i : Nat) (v : Sample) :
    ((s.setSample k i v).frames.get j).length = (s.frames.get j).length := by
  rw [setSample_frames, frames_get_set]; split <;> simp_all

/-! ### The datagram -/

@[simp] theorem serializePacket_length (seq ts : Word) (ptt call : Bool) (p : List Byte) :
    (serializePacket seq ts ptt call p).length = Config.hdrLen + p.length := by
  simp [serializePacket, le32, le16, Config.hdrLen]; omega

/-- The payload of a datagram follows its 12-byte header (R191). -/
theorem serializePacket_payload (seq ts : Word) (ptt call : Bool) (p : List Byte) {j : Nat} (h : j < p.length) :
    (serializePacket seq ts ptt call p)[12 + j]'(by simp [Config.hdrLen]; omega) = p[j] := by
  simp [serializePacket, le32, le16, show ∀ k, 12 + k = k + 1 + 1 + 1 + 1 + 1 + 1 + 1 + 1 + 1 + 1 + 1 + 1 by omega]

/-! ### The results a meaning can have -/

/-- Everything `ENC` can do (R135). -/
theorem encodeWith_cases (s : State) (core : Config.CodecCore s.params) (pd : PReg) (fa : FReg) :
    (∃ c b, core.enc s.codecState (s.frame fa) = (c, some b) ∧ encodeWith s core pd fa = encodeOk s pd c b.val) ∨
    (∃ c, core.enc s.codecState (s.frame fa) = (c, none) ∧ encodeWith s core pd fa = encodeErr s c) := by
  unfold encodeWith
  rcases core.enc s.codecState (s.frame fa) with ⟨c, _ | b⟩
  · exact .inr ⟨c, rfl, rfl⟩
  · exact .inl ⟨c, b, rfl, rfl⟩

/-- Everything `DEC` can do (R137). -/
theorem decodeWith_cases (s : State) (core : Config.CodecCore s.params) (fd : FReg) (pa : PReg) (loss : Bool) :
    (∃ c f, decodeWith s core fd pa loss = decodeOk s fd c f) ∨
    (s.params.maxPayload < s.plen pa ∧ decodeWith s core fd pa loss = s.raise .tooBig) ∨
    (∃ c, decodeWith s core fd pa loss = decodeErr s c) := by
  unfold decodeWith
  split
  · exact .inl ⟨_, _, rfl⟩
  · split
    · next h => exact .inr (.inl ⟨h, rfl⟩)
    · rcases core.dec s.codecState (s.payload pa) with ⟨c, _ | f⟩
      · exact .inr (.inr ⟨c, rfl⟩)
      · exact .inl ⟨c, f, rfl⟩

/-- Everything `PKT_SEND` can do (R195, R196). -/
theorem execPktSend_cases (s : State) (pa : PReg) (ptt call : Bool) :
    (s.params.maxPayload < s.plen pa ∧ execPktSend pa ptt call s = .next (s.raise .tooBig)) ∨
    (s.plen pa ≤ s.params.maxPayload ∧ s.inputLinkUp = true ∧
      execPktSend pa ptt call s = .next (packetSent s pa ptt call)) ∨
    (s.plen pa ≤ s.params.maxPayload ∧ s.inputLinkUp = false ∧
      execPktSend pa ptt call s = .next (packetFailed s pa ptt call)) := by
  unfold execPktSend
  by_cases h : s.plen pa > s.params.maxPayload
  · exact .inl ⟨h, by rw [if_pos h]⟩
  · rw [if_neg h]
    cases hl : s.inputLinkUp
    · exact .inr (.inr ⟨by omega, rfl, rfl⟩)
    · exact .inr (.inl ⟨by omega, rfl, rfl⟩)

/-- When `PKT_RECV` accepts the datagram in `RXD` (R203, R204). -/
def rxAccepted (s : State) : Prop :=
  Config.hdrLen ≤ s.csr.rxdLen.toNat ∧ s.rxSize ≤ s.params.maxPayload ∧ Config.hdrLen + s.rxSize ≤ s.csr.rxdLen.toNat

/-- Everything `PKT_RECV` can do (R203, R204). -/
theorem execPktRecv_cases (s : State) (pd : PReg) :
    (s.csr.rxdLen.toNat < Config.hdrLen ∧ execPktRecv pd s = .next (s.raise .short)) ∨
    (Config.hdrLen ≤ s.csr.rxdLen.toNat ∧ ¬ rxAccepted s ∧ execPktRecv pd s = .next (s.raise .badSize)) ∨
    (rxAccepted s ∧ execPktRecv pd s = .next (packetReceived s pd)) := by
  unfold execPktRecv rxAccepted
  by_cases h1 : s.csr.rxdLen.toNat < Config.hdrLen
  · exact .inl ⟨h1, by rw [if_pos h1]⟩
  · rw [if_neg h1]
    by_cases h2 : s.rxSize > s.params.maxPayload ∨ Config.hdrLen + s.rxSize > s.csr.rxdLen.toNat
    · exact .inr (.inl ⟨by omega, by omega, by rw [if_pos h2]⟩)
    · exact .inr (.inr ⟨by omega, by rw [if_neg h2]⟩)

/-! ### The host's transactions -/

/-- Everything a write of a CSR can do (R25, R89). -/
theorem csrWrite_cases {s t : State} {v : Word} {r : CsrName} (h : csrWrite s v r = some t) :
    (r = .cmd ∧ t = s.startCommand v) ∨
    (r = .errFlags ∧ t = { s with csr := { s.csr with errFlags := errFlagsCleared s.csr.errFlags v } }) ∨
    (r = .cfg ∧ t = { s with csr := { s.csr with limEn := v.getLsbD 0 } }) ∨
    (r = .limKnee ∧ t = { s with csr := { s.csr with knee := v.setWidth 15 } }) ∨
    (r = .mixGain ∧
      t = { s with csr := { s.csr with gainA := v.extractLsb' 0 16, gainB := v.extractLsb' 16 16 } }) ∨
    (r = .stLevel ∧ t = { s with csr := { s.csr with level := v.setWidth 16 } }) ∨
    (r = .plen0 ∧ t = { s with csr := { s.csr with plen0 := lengthWritten s.csr.plen0 v } }) ∨
    (r = .plen1 ∧ t = { s with csr := { s.csr with plen1 := lengthWritten s.csr.plen1 v } }) ∨
    (r = .rxdLen ∧ t = { s with csr := { s.csr with rxdLen := lengthWritten s.csr.rxdLen v } }) := by
  cases r
  case cmd => exact .inl ⟨rfl, (Option.some.inj h).symm⟩
  case errFlags => exact .inr (.inl ⟨rfl, (Option.some.inj h).symm⟩)
  case cfg => exact .inr (.inr (.inl ⟨rfl, (Option.some.inj h).symm⟩))
  case limKnee => exact .inr (.inr (.inr (.inl ⟨rfl, (Option.some.inj h).symm⟩)))
  case mixGain => exact .inr (.inr (.inr (.inr (.inl ⟨rfl, (Option.some.inj h).symm⟩))))
  case stLevel => exact .inr (.inr (.inr (.inr (.inr (.inl ⟨rfl, (Option.some.inj h).symm⟩)))))
  case plen0 => exact .inr (.inr (.inr (.inr (.inr (.inr (.inl ⟨rfl, (Option.some.inj h).symm⟩))))))
  case plen1 => exact .inr (.inr (.inr (.inr (.inr (.inr (.inr (.inl ⟨rfl, (Option.some.inj h).symm⟩)))))))
  case rxdLen => exact .inr (.inr (.inr (.inr (.inr (.inr (.inr (.inr ⟨rfl, (Option.some.inj h).symm⟩)))))))
  all_goals cases h

/-- Where an access with target `bytes` lies: inside one of the four buffers (R72). -/
theorem locate_bytes {p : Config.Params} {a n : Nat} {w : Bool} (h : locate p a n = .bytes w) :
    0x4000 ≤ a ∧ a < 0x4800 ∧ (a - 0x4000) % 0x200 + n ≤ 0x200 ∧ w = decide ((a - 0x4000) / 0x200 ≠ 2) := by
  unfold locate at h
  dsimp only at h
  repeat' split at h
  all_goals first
    | (cases h; done)
    | (have := Target.bytes.inj h; refine ⟨?_, ?_, ?_, this.symm⟩ <;> omega)

/-- Everything an admitted bus write can do (R89). -/
theorem memWrite_cases {s t : State} {a : BitVec 16} {z : BitVec 2} {v : Word} (h : memWrite s a z v = some t) :
    s.csr.busy = false ∧
    ((∃ r, csrWrite s v r = some t) ∨
     (∃ k i x, t = s.setSample k i x) ∨
     (∃ k i x y, t = (s.setSample k i x).setSample k (i + 1) y) ∨
     (∃ n, locate s.params a.toNat n = .bytes true ∧ t = s.writeBytes a.toNat (leBytes n v.toNat))) := by
  unfold memWrite at h
  dsimp only at h
  split at h
  · cases h
  · next n _ =>
    split at h
    · cases h
    · next hb =>
      refine ⟨by simpa using hb, ?_⟩
      split at h
      · cases h
      · split at h
        · next r _ => exact .inl ⟨r, h⟩
        · next k i _ => exact .inr (.inl ⟨k, i, _, (Option.some.inj h).symm⟩)
        · next k i _ => exact .inr (.inr (.inl ⟨k, i, _, _, (Option.some.inj h).symm⟩))
        · next hl => exact .inr (.inr (.inr ⟨n, hl, (Option.some.inj h).symm⟩))
        · cases h
        · cases h

/-- While a command is pending no bus write is admitted (R273). -/
theorem memWrite_busy {s : State} (h : s.csr.busy = true) (a : BitVec 16) (z : BitVec 2) (v : Word) :
    memWrite s a z v = none := by
  simp only [memWrite, h]
  split <;> simp

/-- Everything the host's turn can do (R24, R118, R119, R260). -/
theorem hostTurn_cases (s : State) :
    (s.host.program = [] ∧ hostTurn s = s) ∨
    (∃ a z r, s.host.program = .read a z :: r ∧ hostTurn s = (s.consume r).emit (readEvent (memRead s a z))) ∨
    (∃ a z v r, s.host.program = .write a z v :: r ∧ memWrite (s.consume r) a z v = none ∧
      hostTurn s = (s.consume r).emit (.writeAnswer true)) ∨
    (∃ a z v r t, s.host.program = .write a z v :: r ∧ memWrite (s.consume r) a z v = some t ∧
      hostTurn s = t.emit (.writeAnswer false)) ∨
    (∃ r, s.host.program = .wait :: r ∧ s.csr.busy = true ∧
      hostTurn s = { s with delay := s.delay - 1 }.emit (readEvent (memRead s 4 2))) ∨
    (∃ r, s.host.program = .wait :: r ∧ s.csr.busy = false ∧
      hostTurn s = (s.consume r).emit (readEvent (memRead s 4 2))) ∨
    (∃ r, s.host.program = .rst :: r ∧ hostTurn s = (s.consume r).resetBlock) := by
  unfold hostTurn
  rcases hp : s.host.program with _ | ⟨_ | ⟨a, z, v⟩ | _ | _, r⟩
  · exact .inl ⟨rfl, rfl⟩
  · exact .inr (.inl ⟨_, _, r, rfl, rfl⟩)
  · rcases hw : memWrite (s.consume r) a z v with _ | t
    · exact .inr (.inr (.inl ⟨a, z, v, r, rfl, hw, by simp [hostWrite, hw]⟩))
    · exact .inr (.inr (.inr (.inl ⟨a, z, v, r, t, rfl, hw, by simp [hostWrite, hw]⟩)))
  · cases hb : s.csr.busy
    · exact .inr (.inr (.inr (.inr (.inr (.inl ⟨r, rfl, rfl, by simp⟩)))))
    · exact .inr (.inr (.inr (.inr (.inl ⟨r, rfl, rfl, by simp⟩))))
  · exact .inr (.inr (.inr (.inr (.inr (.inr ⟨r, rfl, rfl⟩)))))

/-- Everything a step can do: the block executes the pending command or reports it illegal, or the host takes its turn. -/
theorem step_cases {s t : State} (h : step s = .next t) :
    (s.blockMoves = true ∧ ∃ i, decode s.cmdReg = .ok i ∧ exec i s = .next t) ∨
    (s.blockMoves = true ∧ (∃ e, decode s.cmdReg = .error e) ∧ t = s.raise .illegal) ∨
    (s.blockMoves = false ∧ t = hostTurn s) := by
  unfold step blockTurn at h
  split at h
  · next hb =>
    split at h
    · next i hi => exact .inl ⟨hb, i, hi, h⟩
    · next e he => exact .inr (.inl ⟨hb, ⟨e, he⟩, (Host.Outcome.next.inj h).symm⟩)
  · next hb => exact .inr (.inr ⟨by simpa using hb, (Host.Outcome.next.inj h).symm⟩)

end Sys2Proof.Machine
end

