-- ==== Sys2Proof/Laws/Bus.lean ====
section
/-! SUPPORT. The host bus: what an access of each region comes down to, the register words bit by bit, and what an access while
a command is pending gets. -/

namespace Sys2Proof.Machine

/-! ### Register words -/

/-- Bit `k` of `STATUS` (R27). -/
theorem statusWord_getLsbD (c : Csrs) (k : Nat) :
    (statusWord c).getLsbD k =
      if k = 0 then c.busy else if 4 ≤ k then (BitVec.ofNat 4 (codeNumber c.err)).getLsbD (k - 4) else false := by
  change (0#24 ++ BitVec.ofNat 4 (codeNumber c.err) ++ 0#3 ++ BitVec.ofBool c.busy
    : BitVec (24 + 4 + 3 + 1)).getLsbD k = _
  simp only [BitVec.getLsbD_append, BitVec.getLsbD_ofBool, BitVec.getLsbD_zero]
  by_cases h : k < 32
  · interval_cases k <;> simp
  · rw [if_neg (by omega), if_neg (by omega), if_neg (by omega), if_neg (by omega), if_pos (by omega),
      BitVec.getLsbD_of_ge _ _ (by omega)]

/-- Bit `k` of `ERRFLAGS` (R28). -/
theorem errFlagsWord_getLsbD (c : Csrs) (k : Nat) :
    (errFlagsWord c).getLsbD k = if k = 0 then false else c.errFlags.getLsbD (k - 1) := by
  change (0#25 ++ c.errFlags ++ 0#1 : BitVec (25 + 6 + 1)).getLsbD k = _
  simp only [BitVec.getLsbD_append, BitVec.getLsbD_zero]
  by_cases h : k < 7
  · interval_cases k <;> simp
  · rw [if_neg (by omega), if_neg (by omega), if_neg (by omega), BitVec.getLsbD_of_ge _ _ (by omega)]

/-- A register narrower than 32 bits reads as its value (R49). -/
theorem zero_append_toNat {a n : Nat} (x : BitVec n) : (0#a ++ x).toNat = x.toNat := by
  rw [BitVec.toNat_append]; simp

/-- `MIX_GAIN` as a number: the gain for `F[FB]` above the gain for `F[FA]` (R31). -/
theorem mixGain_toNat (a b : BitVec 16) : (b ++ a).toNat = a.toNat + 65536 * b.toNat := by
  rw [BitVec.toNat_append, ← Nat.shiftLeft_add_eq_or_of_lt a.isLt, Nat.shiftLeft_eq]; omega

/-- `STATUS` as a number (R27). -/
theorem statusWord_toNat (c : Csrs) : (statusWord c).toNat = c.busy.toNat + 16 * codeNumber c.err := by
  change (0#24 ++ BitVec.ofNat 4 (codeNumber c.err) ++ 0#3 ++ BitVec.ofBool c.busy : BitVec (24 + 4 + 3 + 1)).toNat = _
  cases c.busy <;> cases c.err <;> rfl

/-- `ERRFLAGS` as a number (R28). -/
theorem errFlagsWord_toNat (c : Csrs) : (errFlagsWord c).toNat = 2 * c.errFlags.toNat := by
  change (0#25 ++ c.errFlags ++ 0#1 : BitVec (25 + 6 + 1)).toNat = _
  rw [BitVec.toNat_append, BitVec.toNat_append, ← Nat.shiftLeft_add_eq_or_of_lt (0#1).isLt]
  simp [Nat.shiftLeft_eq, Nat.mul_comm]

/-- `RX_INFO` as a number (R36). -/
theorem rxInfoWord_toNat (c : Csrs) :
    (rxInfoWord c).toNat = c.rxPtt.toNat + 2 * c.rxCall.toNat + 256 * c.haveLast.toNat := by
  change (0#23 ++ BitVec.ofBool c.haveLast ++ 0#6 ++ BitVec.ofBool c.rxCall ++ BitVec.ofBool c.rxPtt
    : BitVec (23 + 1 + 6 + 1 + 1)).toNat = _
  cases c.haveLast <;> cases c.rxCall <;> cases c.rxPtt <;> rfl

/-! ### Registers over the bus -/

theorem csrAtOffset_lt {a : Nat} {r : CsrName} (h : csrAtOffset a = some r) : a < 0x60 ∧ a % 4 = 0 := by
  unfold csrAtOffset at h
  split at h <;> simp_all

theorem locate_csr {p : Config.Params} {a : Nat} {r : CsrName} (h : csrAtOffset a = some r) : locate p a 4 = .csr r := by
  simp [locate, (csrAtOffset_lt h).1, h]

/-- A 4-byte read of a register of an idle block is `csrRead` (R88). -/
theorem memRead_csr {s : State} {a : BitVec 16} {r : CsrName} (hb : s.csr.busy = false)
    (h : csrAtOffset a.toNat = some r) : memRead s a 2 = csrRead s.csr r := by
  simp [memRead, widthOf, hb, (csrAtOffset_lt h).2, locate_csr h]

/-- A 4-byte write of a register of an idle block is `csrWrite` (R89). -/
theorem memWrite_csr {s : State} {a : BitVec 16} {v : Word} {r : CsrName} (hb : s.csr.busy = false)
    (h : csrAtOffset a.toNat = some r) : memWrite s a 2 v = csrWrite s v r := by
  simp [memWrite, widthOf, hb, (csrAtOffset_lt h).2, locate_csr h]

/-- A register read right after reset (R261). -/
theorem memRead_reset (p : Config.Params) (e : Nat) {a : BitVec 16} {v : Word}
    (h : (csrAtOffset a.toNat).bind (csrRead Csrs.reset) = some v) : memRead (State.resetWith p e) a 2 = some v := by
  obtain ⟨r, h1, h2⟩ := Option.bind_eq_some_iff.mp h
  rw [memRead_csr (by rfl) h1, resetWith_csr, h2]

/-- `STATUS` can be read at any time (R273). -/
theorem memRead_status (s : State) : memRead s 4 2 = some (statusWord s.csr) := by
  simp [memRead, widthOf, locate, csrAtOffset, csrRead]

theorem widthOf_cases {z : BitVec 2} {n : Nat} (h : widthOf z = some n) :
    z = 0 ∧ n = 1 ∨ z = 1 ∧ n = 2 ∨ z = 2 ∧ n = 4 := by
  have hz : ∀ y : BitVec 2, y = 0 ∨ y = 1 ∨ y = 2 ∨ y = 3 := by decide
  obtain rfl | rfl | rfl | rfl := hz z <;> simp_all [widthOf]

/-- While a command is pending a read that is not the 4-byte read of `STATUS` gets `herr` (R273). -/
theorem memRead_busy {s : State} (h : s.csr.busy = true) {a : BitVec 16} {z : BitVec 2} (hn : ¬(a = 4 ∧ z = 2)) :
    memRead s a z = none := by
  simp only [memRead]
  split
  · rfl
  · next n hz =>
    rw [if_pos]
    refine ⟨h, fun ⟨h1, h2⟩ => hn ⟨BitVec.eq_of_toNat_eq h1, ?_⟩⟩
    rcases widthOf_cases hz with ⟨rfl, rfl⟩ | ⟨rfl, rfl⟩ | ⟨rfl, rfl⟩ <;> simp_all

/-! ### Host writes -/

/-- An access that reaches a register is a 4-byte access at the register's offset (R25, R79). -/
theorem locate_csr_inv {p : Config.Params} {a n : Nat} {r : CsrName} (h : locate p a n = .csr r) :
    csrAtOffset a = some r ∧ n = 4 := by
  unfold locate at h
  dsimp only at h
  repeat' split at h
  all_goals first
    | (cases h; done)
    | (cases h; exact ⟨‹_›, ‹_›⟩)

theorem csrAtOffset_cmd {a : Nat} (h : csrAtOffset a = some .cmd) : a = 0 := by
  unfold csrAtOffset at h
  split at h <;> simp_all

/-- Only a 4-byte access at offset 0 reaches `CMD`. -/
theorem locate_ne_cmd {p : Config.Params} {a : BitVec 16} {z : BitVec 2} {n : Nat} (hz : widthOf z = some n)
    (hc : ¬(a = 0 ∧ z = 2)) : locate p a.toNat n ≠ .csr .cmd := by
  intro hl
  obtain ⟨h0, rfl⟩ := locate_csr_inv hl
  refine hc ⟨BitVec.eq_of_toNat_eq (csrAtOffset_cmd h0), ?_⟩
  rcases widthOf_cases hz with ⟨-, h4⟩ | ⟨-, h4⟩ | ⟨h4, -⟩
  · cases h4
  · cases h4
  · exact h4

/-- Only a write of `CMD` draws a delay; a write of any other register leaves the environment as it was (R26). -/
theorem csrWrite_env {s t : State} {v : Word} {r : CsrName} (hr : r ≠ .cmd) (h : csrWrite s v r = some t) : t.env = s.env := by
  cases r <;> first | exact absurd rfl hr | (cases h; done) | rw [← Option.some.inj h]

/-- A host write that is no write of `CMD` takes no draw and leaves the environment as it was. -/
theorem memWrite_env {s t : State} {a : BitVec 16} {z : BitVec 2} {v : Word} (hc : ¬(a = 0 ∧ z = 2))
    (h : memWrite s a z v = some t) : t.env = s.env := by
  unfold memWrite at h
  dsimp only at h
  repeat' split at h
  all_goals first
    | (cases h; done)
    | (next hz _ _ _ _ hl => exact csrWrite_env (fun e => locate_ne_cmd hz hc (e ▸ hl)) h)
    | (rw [← Option.some.inj h]; rfl)

/-- A bus write does not look at the host or at the delay, and an admitted one keeps both but for the delay of a command that it
starts (R26, R89). -/
theorem memWrite_consume {s t : State} {a : BitVec 16} {z : BitVec 2} {v : Word} (r : List BusOp)
    (h : memWrite s a z v = some t) :
    memWrite (s.consume r) a z v = some { t with
      host := ⟨r, s.host.pos + 1⟩, delay := if a = 0 ∧ z = 2 then t.delay else t.delay - 1 } := by
  have hb := (memWrite_cases h).1
  by_cases hc : a = 0 ∧ z = 2
  · obtain ⟨rfl, rfl⟩ := hc
    rw [memWrite_csr hb (r := .cmd) rfl] at h
    rw [memWrite_csr (s := s.consume r) hb (r := .cmd) rfl, if_pos ⟨rfl, rfl⟩, ← Option.some.inj h]
    rfl
  · rw [if_neg hc]
    unfold memWrite at h ⊢
    dsimp only at h ⊢
    split at h
    · cases h
    · next n hz =>
      rw [if_neg (by simp [hb])] at h
      rw [if_neg (by simp [hb])]
      split at h
      · cases h
      · next ha =>
        rw [if_neg ha, consume_params]
        split at h
        · next q hl =>
          have hq : q ≠ .cmd := fun e => locate_ne_cmd hz hc (e ▸ hl)
          cases q <;> first | exact absurd rfl hq | (cases h; done) | (rw [← Option.some.inj h]; rfl)
        · rw [← Option.some.inj h]; rfl
        · rw [← Option.some.inj h]; rfl
        · rw [← Option.some.inj h]; rfl
        · cases h
        · cases h

/-- A write that is refused is refused with the transaction taken too. -/
theorem memWrite_consume_none {s : State} {a : BitVec 16} {z : BitVec 2} {v : Word} (r : List BusOp)
    (h : memWrite s a z v = none) : memWrite (s.consume r) a z v = none := by
  unfold memWrite at h ⊢
  dsimp only at h ⊢
  split at h
  · rfl
  · split at h
    · next hb => exact if_pos hb
    · next hb =>
      refine (if_neg hb).trans ?_
      split at h
      · next ha => exact if_pos ha
      · next ha =>
        refine (if_neg ha).trans ?_
        rw [consume_params]
        split at h <;> first | rfl | cases h | skip
        next q hl => cases q <;> first | rfl | cases h

/-! ### Buffers and frame windows over the bus -/

/-- An aligned access of 1, 2 or 4 bytes to the buffers lies inside one of them (R72, R75). -/
theorem locate_buffers {p : Config.Params} {a n : Nat} (hn : n = 1 ∨ n = 2 ∨ n = 4) (ha : a % n = 0) (h1 : 0x4000 ≤ a)
    (h2 : a < 0x4800) : locate p a n = .bytes (decide ((a - 0x4000) / 0x200 ≠ 2)) := by
  unfold locate
  rw [if_neg (by omega), if_neg (by omega), if_pos (by omega), if_pos]
  rcases hn with rfl | rfl | rfl <;> omega

/-- The little-endian value of a range of buffer bytes (R75). -/
theorem leValue_bytesAt (s : State) (a n : Nat) :
    leValue (s.bytesAt a n) = ∑ j ∈ Finset.range n, (s.byteAt (a + j)).toNat * 256 ^ j := by
  induction n generalizing a with
  | zero => rfl
  | succ n ih =>
    have hb : s.bytesAt a (n + 1) = s.byteAt a :: s.bytesAt (a + 1) n := by
      simp only [State.bytesAt, List.range_succ_eq_map, List.map_cons, List.map_map, Nat.add_zero]
      exact congrArg _ (List.map_congr_left fun j _ => by simp [Nat.add_comm, Nat.add_left_comm])
    rw [hb, leValue, ih, Finset.sum_range_succ', Finset.mul_sum, Nat.add_comm]
    refine congrArg₂ _ (Finset.sum_congr rfl fun j _ => ?_) (by simp)
    rw [Nat.add_assoc, Nat.add_comm 1 j, Nat.pow_succ]; ring

/-- The value of `n` bytes fits in `n` bytes. -/
theorem leValue_lt (bs : List Byte) : leValue bs < 256 ^ bs.length := by
  induction bs with
  | nil => simp [leValue]
  | cons b bs ih =>
    have := b.isLt
    rw [leValue, List.length_cons, Nat.pow_succ]; omega

/-- The number of a frame window (R71). -/
theorem windowFrame_of_base (k : FReg) {off : Nat} (h : off < 0x800) :
    windowFrame ((frameBase k + off - 0x1000) / 0x800) = k ∧ (frameBase k + off - 0x1000) % 0x800 = off ∧
      0x1000 ≤ frameBase k ∧ frameBase k ≤ 0x2800 := by
  cases k <;> simp only [frameBase]
  · rw [show (0x1000 + off - 0x1000) / 0x800 = 0 by omega]; exact ⟨rfl, by omega, by omega, by omega⟩
  · rw [show (0x1800 + off - 0x1000) / 0x800 = 1 by omega]; exact ⟨rfl, by omega, by omega, by omega⟩
  · rw [show (0x2000 + off - 0x1000) / 0x800 = 2 by omega]; exact ⟨rfl, by omega, by omega, by omega⟩
  · rw [show (0x2800 + off - 0x1000) / 0x800 = 3 by omega]; exact ⟨rfl, by omega, by omega, by omega⟩

/-- What an access at offset `off` of frame register `k`'s window reaches (R71, R79). -/
theorem locate_frame (p : Config.Params) (k : FReg) {off n : Nat} (h : off < 0x800) :
    locate p (frameBase k + off) n =
      if off + n ≤ 2 * p.frameLen then
        if n = 2 then .sample k (off / 2) else if n = 4 then .samples k (off / 2) else .nothing
      else .nothing := by
  obtain ⟨h1, h2, h3, h4⟩ := windowFrame_of_base k h
  unfold locate
  rw [if_neg (by omega), if_pos (by omega)]
  dsimp only
  rw [h1, h2]

end Sys2Proof.Machine
end

