-- ==== Sys2Proof/Laws/Decode.lean ====
section
/-! SUPPORT. The bits and the value of a command word (format `C`, 30_encoding.md R101), and that the field decoders undo the
field encoders. -/

namespace Sys2Proof

@[simp] theorem fregOfBits_fregBits (k : FReg) : fregOfBits (fregBits k) = k := by cases k <;> rfl

@[simp] theorem fregBits_fregOfBits (b : BitVec 2) : fregBits (fregOfBits b) = b := by revert b; decide

@[simp] theorem pregOfBit_pregBit (k : PReg) : pregOfBit (pregBit k) = k := by cases k <;> rfl

@[simp] theorem pregBit_pregOfBit (b : Bool) : pregBit (pregOfBit b) = b := by cases b <;> rfl

/-- Bit `k` of a command word, field by field (R101). -/
theorem commandWord_getLsbD (opc : BitVec 8) (fd fa fb : BitVec 2) (m0 m1 px : Bool) (k : Nat) :
    (commandWord opc fd fa fb m0 m1 px).getLsbD k =
      if k < 8 then opc.getLsbD k
      else if k < 10 then fd.getLsbD (k - 8)
      else if k < 12 then fa.getLsbD (k - 10)
      else if k < 14 then fb.getLsbD (k - 12)
      else if k = 16 then m0
      else if k = 17 then m1
      else if k = 20 then px
      else false := by
  change (0#11 ++ BitVec.ofBool px ++ 0#2 ++ BitVec.ofBool m1 ++ BitVec.ofBool m0 ++ 0#2 ++ fb ++ fa ++ fd ++ opc
    : BitVec (11 + 1 + 2 + 1 + 1 + 2 + 2 + 2 + 2 + 8)).getLsbD k = _
  simp only [BitVec.getLsbD_append, BitVec.getLsbD_ofBool, BitVec.getLsbD_zero]
  by_cases h : k < 32
  · interval_cases k <;> simp
  · repeat' rw [if_neg (by omega)]

/-- The value of a command word as a sum of its fields (R101, R110). -/
theorem commandWord_toNat (opc : BitVec 8) (fd fa fb : BitVec 2) (m0 m1 px : Bool) :
    (commandWord opc fd fa fb m0 m1 px).toNat =
      opc.toNat + fd.toNat * 2 ^ 8 + fa.toNat * 2 ^ 10 + fb.toNat * 2 ^ 12 + m0.toNat * 2 ^ 16 + m1.toNat * 2 ^ 17 +
        px.toNat * 2 ^ 20 := by
  change (0#11 ++ BitVec.ofBool px ++ 0#2 ++ BitVec.ofBool m1 ++ BitVec.ofBool m0 ++ 0#2 ++ fb ++ fa ++ fd ++ opc
    : BitVec (11 + 1 + 2 + 1 + 1 + 2 + 2 + 2 + 2 + 8)).toNat = _
  have h0 := opc.isLt; have h1 := fd.isLt; have h2 := fa.isLt; have h3 := fb.isLt
  simp only [BitVec.toNat_append, BitVec.toNat_ofBool]
  rw [← Nat.shiftLeft_add_eq_or_of_lt h0, ← Nat.shiftLeft_add_eq_or_of_lt h1, ← Nat.shiftLeft_add_eq_or_of_lt h2,
    ← Nat.shiftLeft_add_eq_or_of_lt h3]
  cases m0 <;> cases m1 <;> cases px <;> simp [Nat.shiftLeft_eq] <;> omega

/-- A word whose reserved bits are zero is the command word of its own fields (R101, R102). -/
theorem eq_commandWord {w : Word} (h14 : w.extractLsb' 14 2 = 0) (h18 : w.extractLsb' 18 2 = 0)
    (h21 : w.extractLsb' 21 11 = 0) :
    w = commandWord (w.extractLsb' 0 8) (w.extractLsb' 8 2) (w.extractLsb' 10 2) (w.extractLsb' 12 2) (w.getLsbD 16)
      (w.getLsbD 17) (w.getLsbD 20) := by
  have zero : ∀ {lo n : Nat}, w.extractLsb' lo n = 0 → ∀ j, j < n → w.getLsbD (lo + j) = false := by
    intro lo n hz j hj
    have := congrArg (fun x => BitVec.getLsbD x j) hz
    simpa [BitVec.getLsbD_extractLsb', hj] using this
  refine BitVec.eq_of_getLsbD_eq fun k hk => ?_
  rw [commandWord_getLsbD]
  have e0 := zero h14 0 (by omega); have e1 := zero h14 1 (by omega)
  have e2 := zero h18 0 (by omega); have e3 := zero h18 1 (by omega)
  by_cases h : 21 ≤ k
  · have := zero h21 (k - 21) (by omega)
    rw [show 21 + (k - 21) = k by omega] at this
    rw [this]
    repeat' rw [if_neg (by omega)]
  · simp only [BitVec.getLsbD_extractLsb']
    interval_cases k <;> simp_all

end Sys2Proof
end

