-- ==== Sys2Proof/Laws/Packet.lean ====
section
/-! SUPPORT. The datagram byte by byte, and what a block does with a datagram that a sender made: what `PKT_RECV` reads in
`RXD`, and the registers after it. -/

namespace Sys2Proof.Machine

/-- The bounds of R5 and R6, as inequalities. -/
theorem params_bounds {p : Config.Params} (h : paramsWellFormed p = true) :
    1 ≤ p.frameLen ∧ p.frameLen ≤ 1024 ∧ 1 ≤ p.maxPayload ∧ p.maxPayload ≤ 500 := by
  simpa [paramsWellFormed, and_assoc] using h

/-- The header of a datagram, byte by byte (R191). -/
theorem serializePacket_header (seq ts : Word) (ptt call : Bool) (p : List Byte) :
    let k := serializePacket seq ts ptt call p
    let n : BitVec 16 := BitVec.ofNat 16 p.length
    (k[0]? = some (seq.extractLsb' 0 8) ∧ k[1]? = some (seq.extractLsb' 8 8) ∧
      k[2]? = some (seq.extractLsb' 16 8) ∧ k[3]? = some (seq.extractLsb' 24 8)) ∧
    (k[4]? = some (ts.extractLsb' 0 8) ∧ k[5]? = some (ts.extractLsb' 8 8) ∧
      k[6]? = some (ts.extractLsb' 16 8) ∧ k[7]? = some (ts.extractLsb' 24 8)) ∧
    k[8]? = some (n.extractLsb' 0 8) ∧ k[9]? = some (n.extractLsb' 8 8) ∧
    k[10]? = some (flagsByte ptt call) ∧ k[11]? = some 0 := by
  simp [serializePacket, le32, le16]

/-- A byte of a sequence that was written, read back. -/
theorem byteAt_writeBytes_of_getElem? (s : State) (a : Nat) {bs : List Byte} {j : Nat} {b : Byte} (h : bs[j]? = some b) :
    (s.writeBytes a bs).byteAt (a + j) = b := by
  obtain ⟨hj, h⟩ := List.getElem?_eq_some_iff.mp h
  rw [byteAt_writeBytes_at _ _ hj, h]

/-- A byte of a presented datagram, as `PKT_RECV` reads it. -/
theorem presented_rxd (s : State) {d : List Byte} {j : Nat} {b : Byte} (h : d[j]? = some b) :
    (s.presented d).rxd j = b :=
  byteAt_writeBytes_of_getElem? s rxdBase h

theorem presented_bytesAt (s : State) (d : List Byte) (a n : Nat) :
    (s.presented d).bytesAt a n = (s.writeBytes rxdBase d).bytesAt a n := rfl

/-- The registers after a datagram was accepted (R203). -/
theorem packetReceived_csr (s : State) (pd : PReg) :
    (packetReceived s pd).csr =
      { (s.csr.received s.rxSeq (s.rxd 10)).setPlen pd (BitVec.ofNat 10 s.rxSize) with busy := false, err := .ok } := rfl

/-- The receive statistics after a datagram was accepted (R203, R206, R207). -/
theorem packetReceived_stats (s : State) (pd : PReg) :
    (packetReceived s pd).csr.pktsRecv = s.csr.pktsRecv + 1 ∧
    (packetReceived s pd).csr.pktsLost = s.csr.pktsLost + lossGap s.csr.haveLast s.csr.rxLastSeq s.rxSeq ∧
    (packetReceived s pd).csr.rxLastSeq = s.rxSeq ∧ (packetReceived s pd).csr.haveLast = true := by
  rw [packetReceived_csr]
  simp only [setPlen_csr_pktsRecv, setPlen_csr_pktsLost, setPlen_csr_rxLastSeq, setPlen_csr_haveLast]
  exact ⟨rfl, rfl, rfl, rfl⟩

theorem packetReceived_params (s : State) (pd : PReg) : (packetReceived s pd).params = s.params := rfl

theorem presented_csr (s : State) (d : List Byte) :
    (s.presented d).csr = { s.csr with rxdLen := BitVec.ofNat 10 d.length } := rfl

/-- The memory after a datagram was accepted (R203). -/
theorem packetReceived_mem (s : State) (pd : PReg) :
    (packetReceived s pd).mem = s.mem.write (payloadBase pd) (s.bytesAt (rxdBase + Config.hdrLen) s.rxSize) := rfl

/-- The memory after a request within the size limit (R195). -/
theorem packetBuilt_mem (s : State) (pa : PReg) (ptt call : Bool) :
    (packetBuilt s pa ptt call).mem =
      s.mem.write txdBase (serializePacket s.csr.txSeq s.inputTimeUs ptt call (s.payload pa)) := rfl

/-- What `PKT_RECV` finds in `RXD` when a sender's datagram was presented: it accepts it and reads the sender's fields. -/
theorem presented_serializePacket (r : State) (seq ts : Word) (ptt call : Bool) (p : List Byte)
    (hp : paramsWellFormed r.params = true) (hl : p.length ≤ r.params.maxPayload) :
    let q := r.presented (serializePacket seq ts ptt call p)
    rxAccepted q ∧ q.rxSeq = seq ∧ q.rxSize = p.length ∧ q.rxd 10 = flagsByte ptt call ∧
      q.bytesAt (rxdBase + Config.hdrLen) p.length = p := by
  obtain ⟨⟨h0, h1, h2, h3⟩, -, h8, h9, h10, -⟩ := serializePacket_header seq ts ptt call p
  have hw := params_bounds hp
  have hsz : (r.presented (serializePacket seq ts ptt call p)).rxSize = p.length := by
    rw [State.rxSize, presented_rxd _ h8, presented_rxd _ h9, u16le_le16, BitVec.toNat_ofNat, Nat.mod_eq_of_lt (by omega)]
  have hlen : (r.presented (serializePacket seq ts ptt call p)).csr.rxdLen.toNat = 12 + p.length := by
    simp only [State.presented, serializePacket_length, Config.hdrLen, BitVec.toNat_ofNat]
    omega
  refine ⟨⟨?_, ?_, ?_⟩, ?_, hsz, presented_rxd _ h10, ?_⟩
  · rw [hlen, Config.hdrLen]; omega
  · rw [hsz]; exact hl
  · rw [hsz, hlen]; exact le_rfl
  · rw [State.rxSeq, presented_rxd _ h0, presented_rxd _ h1, presented_rxd _ h2, presented_rxd _ h3, u32le_le32]
  · rw [presented_bytesAt]
    refine bytesAt_eq_of_byteAt fun j hj => ?_
    have hb := byteAt_writeBytes_at r rxdBase (bs := serializePacket seq ts ptt call p) (j := 12 + j)
      (by rw [serializePacket_length, Config.hdrLen]; omega)
    rw [serializePacket_payload _ _ _ _ _ hj] at hb
    rw [Config.hdrLen, Nat.add_assoc]
    exact hb

/-- A sender's datagram is accepted. -/
theorem exec_pktRecv_presented (pd : PReg) (r : State) (seq ts : Word) (ptt call : Bool) (p : List Byte)
    (hp : paramsWellFormed r.params = true) (hl : p.length ≤ r.params.maxPayload) :
    exec (.pktRecv pd) (r.presented (serializePacket seq ts ptt call p)) =
      .next (packetReceived (r.presented (serializePacket seq ts ptt call p)) pd) := by
  have ha := (presented_serializePacket r seq ts ptt call p hp hl).1
  rcases execPktRecv_cases (r.presented (serializePacket seq ts ptt call p)) pd with ⟨h1, -⟩ | ⟨-, h3, -⟩ | ⟨-, h2⟩
  · have := ha.1; omega
  · exact absurd ha h3
  · exact h2

end Sys2Proof.Machine
end

