-- ==== Sys2Proof/Laws/PerInstr.lean ====
section
/-! SUPPORT. A family of statements made instruction by instruction: every word of a command matches the command's own row of
the opcode map (30_encoding.md R104), whatever its operands. -/

namespace Sys2Proof.Laws.EncodingRow

/-- The word of a command is a word of the command's row (R104). -/
def Statement (i : Instr) : Prop := (rowOf i).hits (encode i) = true

theorem enc (pd : PReg) (fa : FReg) : Statement (.enc pd fa) := by cases pd <;> cases fa <;> rfl

theorem dec (fd : FReg) (pa : PReg) (loss : Bool) : Statement (.dec fd pa loss) := by
  cases fd <;> cases pa <;> cases loss <;> rfl

theorem mix (fd fa fb : FReg) : Statement (.mix fd fa fb) := by cases fd <;> cases fa <;> cases fb <;> rfl

theorem limit (fd fa : FReg) : Statement (.limit fd fa) := by cases fd <;> cases fa <;> rfl

theorem sidetone (fd fmic fin : FReg) (gate : Bool) : Statement (.sidetone fd fmic fin gate) := by
  cases fd <;> cases fmic <;> cases fin <;> cases gate <;> rfl

theorem rms (fa : FReg) : Statement (.rms fa) := by cases fa <;> rfl

theorem pktInit : Statement .pktInit := by rfl

theorem pktSend (pa : PReg) (ptt call : Bool) : Statement (.pktSend pa ptt call) := by
  cases pa <;> cases ptt <;> cases call <;> rfl

theorem pktRecv (pd : PReg) : Statement (.pktRecv pd) := by cases pd <;> rfl

theorem statsClr : Statement .statsClr := by rfl

end Sys2Proof.Laws.EncodingRow
end

