-- ==== Sys2Proof/Tests/Slice0.lean ====
section
/-! SUPPORT. The model's own tests: ill-formed words and configurations are refused, words written out from the spec decode to
what they stand for, one step of every command on a vector of 95_test_vectors.md (`N = 4`), and for every statement with
hypotheses a concrete state and operands that meet them. -/

namespace Sys2Proof.Tests

open Sys2Proof.Machine

/-! ### Helpers -/

/-- The small vectors' configuration. -/
def small : Config.Params := ⟨4, 256⟩

/-- An idle block with four samples a frame register, silent frames, and everything else as after reset. -/
def idle : State where
  params := small
  frames := ⟨[0, 0, 0, 0], [0, 0, 0, 0], [0, 0, 0, 0], [0, 0, 0, 0]⟩
  mem := []
  csr := Csrs.reset
  codecState := ⟨[]⟩
  cmdReg := 0
  delay := 0
  host := ⟨[], 0⟩
  env := ⟨[], [], 0, 0⟩
  log := []

/-- The idle block with the first two frame registers loaded. -/
def loaded (a b : List Sample) : State := { idle with frames := ⟨a, b, [0, 0, 0, 0], [0, 0, 0, 0]⟩ }

/-- The idle block with one sample of its input ports to come. -/
def withPorts (t : Word) (up : Bool) (s : State) : State := { s with env := { s.env with ports := [⟨t, up⟩] } }

/-- One step that completes the command word `w`, and a check of the state it leaves. -/
def completes (s : State) (w : Nat) (p : State → Bool) : Bool :=
  match step (s.withFetchWord 32 w) with
  | .next t => p t
  | .fault _ => false
  | .refused _ => false

/-- A datagram with number `n`, flags byte `f` and payload `p`, the other header bytes zero (95_test_vectors.md 2.8). -/
def datagram (n : Word) (f : Byte) (p : List Byte) : List Byte :=
  le32 n ++ [0, 0, 0, 0] ++ le16 (BitVec.ofNat 16 p.length) ++ [f, 0] ++ p

/-- The bytes of a frame as the test core of 95_test_vectors.md 2.6 encodes it. -/
def toyBytes (f : Config.Frame small) : Config.Payload small :=
  ⟨le16 (f ⟨0, by decide⟩) ++ le16 (f ⟨1, by decide⟩) ++ le16 (f ⟨2, by decide⟩) ++ le16 (f ⟨3, by decide⟩),
    by simp [le16, small]⟩

/-- Sample `i` of a frame in the test core's bytes. -/
def toyFrame (b : List Byte) : Config.Frame small := fun i => u16le (b.getD (2 * i.val) 0) (b.getD (2 * i.val + 1) 0)

/-- The test core `TOY` of 95_test_vectors.md 2.6 for four samples; its state is the last decoded frame's bytes. -/
def toy : Config.CodecCore small where
  init := ⟨[0, 0, 0, 0, 0, 0, 0, 0]⟩
  enc c f := (c, if f ⟨0, by decide⟩ = 0x8000 then none else some (toyBytes f))
  dec c b := if b.length = 8 then (⟨b⟩, some (toyFrame b)) else (c, none)
  plc c := (c, toyFrame c.image)

/-! ### What is ill formed is refused -/

theorem test_wf_unknown_opcode :
    [0x00000000, 0x00000012, 0x00000024, 0x00000034, 0x000000FF].all (fun w => !wordWellFormed w) = true := by decide
theorem test_wf_enc : wordWellFormed 0x00000110 = false ∧ wordWellFormed 0x00010010 = false := by decide
theorem test_wf_dec : wordWellFormed 0x00000411 = false ∧ wordWellFormed 0x00020011 = false := by decide
theorem test_wf_mix : wordWellFormed 0x00100020 = false := by decide
theorem test_wf_limit : wordWellFormed 0x00001021 = false := by decide
theorem test_wf_sidetone : wordWellFormed 0x00020022 = false := by decide
theorem test_wf_rms : wordWellFormed 0x00000123 = false := by decide
theorem test_wf_pktInit : wordWellFormed 0x00100030 = false := by decide
theorem test_wf_pktSend : wordWellFormed 0x00000131 = false := by decide
theorem test_wf_pktRecv : wordWellFormed 0x00010032 = false := by decide
theorem test_wf_statsClr : wordWellFormed 0x00000133 = false := by decide
theorem test_wf_reserved_bits :
    [0x00004020, 0x00008020, 0x00040021, 0x00080021, 0x00200023, 0x80000033].all (fun w => !wordWellFormed w) = true := by
  decide
theorem test_wf_legal : wordWellFormed 0x00110211 = true ∧ wordWellFormed 0x00031B22 = false := by decide
theorem test_params_wf : paramsWellFormed ⟨0, 256⟩ = false ∧ paramsWellFormed ⟨1025, 256⟩ = false ∧
    paramsWellFormed ⟨320, 0⟩ = false ∧ paramsWellFormed ⟨320, 501⟩ = false ∧
    paramsWellFormed ⟨1, 1⟩ = true ∧ paramsWellFormed ⟨1024, 500⟩ = true := by decide

/-! ### Decoding: words written out from format `C` (R101), groups `PX`, `M1 M0`, `FB FA FD`, opcode -/

theorem test_decode_enc : decode 0b00000000000_1_00_00_00_00_10_00_00010000 = .ok (.enc .p1 .f2) := by decide
theorem test_decode_dec : decode 0b00000000000_0_00_00_00_00_00_11_00010001 = .ok (.dec .f3 .p0 false) := by decide
theorem test_decode_dec_loss : decode 0b00000000000_1_00_01_00_00_00_10_00010001 = .ok (.dec .f2 .p1 true) := by decide
theorem test_decode_mix : decode 0b00000000000_0_00_00_00_10_01_11_00100000 = .ok (.mix .f3 .f1 .f2) := by decide
theorem test_decode_limit : decode 0b00000000000_0_00_00_00_00_01_11_00100001 = .ok (.limit .f3 .f1) := by decide
theorem test_decode_sidetone : decode 0b00000000000_0_00_01_00_01_10_11_00100010 = .ok (.sidetone .f3 .f2 .f1 true) := by decide
theorem test_decode_rms : decode 0b00000000000_0_00_00_00_00_10_00_00100011 = .ok (.rms .f2) := by decide
theorem test_decode_pktInit : decode 0b00000000000_0_00_00_00_00_00_00_00110000 = .ok .pktInit := by decide
theorem test_decode_pktSend : decode 0b00000000000_1_00_10_00_00_00_00_00110001 = .ok (.pktSend .p1 false true) := by decide
theorem test_decode_pktRecv : decode 0b00000000000_1_00_00_00_00_00_00_00110010 = .ok (.pktRecv .p1) := by decide
theorem test_decode_statsClr : decode 0b00000000000_0_00_00_00_00_00_00_00110011 = .ok .statsClr := by decide

/-- The names of the two ways to be no command (R106), and a byte string that is too short. -/
theorem test_decode_rejects : decode 0x00000034 = .error .unknownOpcode ∧ decode 0x00010032 = .error .mustBeZero ∧
    decodeBytes [0x10, 0x04, 0x00] = .error .truncated := by decide

/-- The bytes of a word are least significant first (R74). -/
theorem test_decode_bytes : decodeBytes [0x20, 0x12, 0x00, 0x00] = .ok (.mix .f2 .f0 .f1) ∧
    decodeTableWord 32 0x00000721 = some (.limit .f3 .f1) := by decide

theorem test_encode : encode (.mix .f0 .f1 .f2) = 0x00002420 ∧ encode (.pktSend .p1 true false) = 0x00110031 ∧
    encode (.sidetone .f3 .f2 .f1 true) = 0x00011B22 := by decide

/-! ### One step of every command (95_test_vectors.md 2.1 to 2.9) -/

theorem test_mix_unity : completes (loaded [1000, 30000, -30000, -32768] [2000, 10000, -10000, -32768]) 0x1220
    (fun t => t.frames.f2 == [3000, 32767, -32768, -32768] && t.csr == Csrs.reset) = true := by decide
theorem test_mix_truncates_toward_zero : completes
    { loaded [3, -3, 12345, 1] [0, 0, 0, 0] with csr := { Csrs.reset with gainA := 0x4000, gainB := 0 } } 0x1020
    (fun t => t.frames.f0 == [1, -1, 6172, 0]) = true := by decide

theorem test_limit_vectors : completes (loaded [0, 0, 0, 0] [31131, 31132, 32767, -32768]) 0x0721
    (fun t => t.frames.f3 == [31128, 31129, 31537, -31538] && t.frames.f1 == [31131, 31132, 32767, -32768]) = true := by decide
theorem test_limit_knee_zero : completes
    { loaded [100, 3, -3, -4] [0, 0, 0, 0] with csr := { Csrs.reset with knee := 0 } } 0x0021
    (fun t => t.frames.f0 == [25, 0, 0, -1]) = true := by decide

theorem test_sidetone_blend : completes
    { loaded [-32768, 1, -1, 2000] [32767, 0, 0, 1000] with csr := { Csrs.reset with level := 0x4000 } } 0x11222
    (fun t => t.frames.f2 == [0, 0, 0, 1500]) = true := by decide
theorem test_sidetone_gate_off : completes
    { loaded [2000, 2000, 2000, 2000] [1000, -1, 0, 7] with csr := { Csrs.reset with level := 0x2000 } } 0x01222
    (fun t => t.frames.f2 == [1000, -1, 0, 7]) = true := by decide

theorem test_rms_floors : completes (loaded [1000, 2000, 3000, 4000] [0, 0, 0, 0]) 0x0023
    (fun t => t.csr.rmsOut == 2738) = true := by decide
theorem test_rms_full_scale : completes (loaded [-32768, -32768, -32768, -32768] [0, 0, 0, 0]) 0x0023
    (fun t => t.csr.rmsOut == 32768) = true := by decide

theorem test_enc_toy :
    let t := encodeWith (loaded [0, 0, 0, 0] [100, -200, 300, -400]) toy .p0 .f1
    t.payload .p0 = [0x64, 0x00, 0x38, 0xFF, 0x2C, 0x01, 0x70, 0xFE] ∧ t.csr.plen0 = 8 ∧ t.csr.err = .ok := by decide
theorem test_enc_error :
    let s := { loaded [-32768, 0, 0, 0] [0, 0, 0, 0] with mem := [(0x4200, 0x11), (0x4201, 0x22)], csr := { Csrs.reset with plen1 := 2 } }
    let t := encodeWith s toy .p1 .f0
    t.csr.err = .codec ∧ t.csr.errFlags = 0b010000 ∧ t.csr.encErrCnt = 1 ∧ t.mem = s.mem ∧ t.csr.plen1 = 2 := by decide

/-- The state of the third row of 95_test_vectors.md 2.6. -/
def encoded : State :=
  { idle.writeBytes 0x4000 [0x64, 0x00, 0x38, 0xFF, 0x2C, 0x01, 0x70, 0xFE] with csr := { Csrs.reset with plen0 := 8 } }

theorem test_dec_toy :
    let t := decodeWith encoded toy .f3 .p0 false
    t.frames.f3 = [100, -200, 300, -400] ∧ t.csr.err = .ok ∧
      (decodeWith t toy .f2 .p0 true).frames.f2 = [100, -200, 300, -400] := by decide
theorem test_dec_too_big : completes { idle with csr := { Csrs.reset with plen0 := 257 } } 0x0111
    (fun t => t.csr == { Csrs.reset with plen0 := 257, err := .tooBig, errFlags := 0b000010 } && t.frames == idle.frames) = true := by
  decide

/-- The start of 95_test_vectors.md 2.9. -/
def counted : Csrs :=
  { Csrs.reset with
    txSeq := 7, rxLastSeq := 6, rxPtt := true, rxCall := true, haveLast := true, pktsSent := 7, pktsRecv := 5, pktsLost := 2
    bytesSent := 112, bytesRecv := 70, lossPct := 7314, txFailCnt := 1, encErrCnt := 3, decErrCnt := 4, errFlags := 0x30
    plen0 := 4, txdLen := 16, rxdLen := 14, knee := 100 }

theorem test_pktInit : completes { idle with csr := counted } 0x0030
    (fun t => t.csr == { Csrs.reset with
      encErrCnt := 3, decErrCnt := 4, errFlags := 0x30, plen0 := 4, txdLen := 16, rxdLen := 14, knee := 100 }) = true := by decide
theorem test_statsClr : completes { idle with csr := counted } 0x0033
    (fun t => t.csr == { Csrs.reset with
      txSeq := 7, rxLastSeq := 6, rxPtt := true, rxCall := true, haveLast := true
      encErrCnt := 3, decErrCnt := 4, errFlags := 0x30, plen0 := 4, txdLen := 16, rxdLen := 14, knee := 100 }) = true := by decide

/-- The first row of 95_test_vectors.md 2.7. -/
def toSend : State :=
  withPorts 0x00012345 true
    { idle.writeBytes 0x4000 [0xDE, 0xAD, 0xBE, 0xEF] with csr := { Csrs.reset with plen0 := 4 } }

theorem test_pktSend : completes toSend 0x00010031 (fun t =>
    t.log == [.txStrobe [0, 0, 0, 0, 0x45, 0x23, 1, 0, 4, 0, 1, 0, 0xDE, 0xAD, 0xBE, 0xEF]] &&
    t.bytesAt 0x4400 16 == [0, 0, 0, 0, 0x45, 0x23, 1, 0, 4, 0, 1, 0, 0xDE, 0xAD, 0xBE, 0xEF] &&
    t.csr == { Csrs.reset with plen0 := 4, txdLen := 16, txSeq := 1, pktsSent := 1, bytesSent := 16 }) = true := by decide
theorem test_pktSend_link_down : completes (withPorts 0x00017165 false { toSend with csr := { toSend.csr with txSeq := 1 } }) 0x00030031
    (fun t => t.bytesAt 0x4400 12 == [1, 0, 0, 0, 0x65, 0x71, 1, 0, 4, 0, 3, 0] && t.log == [] &&
      t.csr == { Csrs.reset with plen0 := 4, txdLen := 16, txSeq := 2, txFailCnt := 1, err := .link, errFlags := 0x20 }) = true := by
  decide

/-- The second row of 95_test_vectors.md 2.8, with the datagram of `n` presented. -/
def toReceive (n : Word) : State :=
  { idle with csr := { Csrs.reset with haveLast := true, rxLastSeq := 2, pktsRecv := 3 } }.presented (datagram n 1 [0xAA, 0xBB])

theorem test_pktRecv_gap : completes (toReceive 5) 0x00100032 (fun t =>
    t.payload .p1 == [0xAA, 0xBB] && t.log == [.rxStrobe] &&
    t.csr == { Csrs.reset with
      rxdLen := 14, haveLast := true, rxLastSeq := 5, pktsRecv := 4, pktsLost := 2, lossPct := 8533, bytesRecv := 14
      rxPtt := true, plen1 := 2 }) = true := by decide
theorem test_pktRecv_bad_size : completes
    { idle.writeBytes 0x4600 [0, 0, 0, 0, 0, 0, 0, 0, 5, 0, 0, 0, 1, 2, 3, 4] with csr := { Csrs.reset with rxdLen := 16 } } 0x0032
    (fun t => t.csr == { Csrs.reset with rxdLen := 16, err := .badSize, errFlags := 0b001000 } && t.log == []) = true := by decide

theorem test_losspct : losspct 2 4 = 8533 ∧ losspct 2 5 = 7314 ∧ losspct 5 0 = 25600 ∧ losspct 1 25600 = 0 ∧
    losspct 4294967295 4294967295 = 12800 := by decide

/-! ### The bus (95_test_vectors.md 2.10, 2.11) -/

theorem test_bus_refused : memRead idle 0x0000 2 = none ∧ memRead idle 0x0004 1 = none ∧ memRead idle 0x0006 2 = none ∧
    memRead idle 0x0060 2 = none ∧ memRead idle 0x1000 0 = none ∧ memRead idle 0x1008 1 = none ∧ memRead idle 0x41FF 1 = none ∧
    memRead idle 0x4800 0 = none ∧ (memWrite idle 0x4400 0 1).isNone ∧ (memWrite idle 0x0020 2 5).isNone := by decide
theorem test_bus_samples :
    let s := (memWrite idle 0x1004 2 0xFFFF0001).getD idle
    memRead s 0x1004 1 = some 1 ∧ memRead s 0x1006 1 = some 0xFFFF ∧ s.frames.f0 = [0, 0, 1, -1] := by decide
theorem test_bus_bytes :
    let s := (memWrite idle 0x41FC 2 0x44332211).getD idle
    memRead s 0x41FF 0 = some 0x44 ∧ memRead s 0x41FC 1 = some 0x2211 := by decide
theorem test_bus_errflags :
    let s := { idle with csr := { Csrs.reset with errFlags := 0b100011 } }
    memRead s 8 2 = some 0x46 ∧ memRead ((memWrite s 8 2 4).getD s) 8 2 = some 0x42 ∧
      memRead ((memWrite s 8 2 0xFFFFFF81).getD s) 8 2 = some 0x46 := by decide
theorem test_bus_busy :
    let s := { idle with csr := { Csrs.reset with busy := true, err := .short, errFlags := 4 }, cmdReg := 0x0A21, delay := 9 }
    memRead s 4 2 = some 0x31 ∧ memRead s 8 2 = none ∧ memRead s 4 1 = none ∧ (memWrite s 0 2 0x33).isNone := by decide

/-- The pseudo-instructions of R119 as the transactions of program P1. -/
theorem test_assembler : asmLdf .f0 [30000, -30000] = [wr16 0x1000 0x7530, wr16 0x1002 0x8AD0] ∧
    asmCommand (.mix .f2 .f0 .f1) = [.write 0 2 0x1220, .wait] ∧
    asmLdrxd [7] = [.write 0x4600 0 7, .write 0x5C 2 1] ∧ assemblerLine (.dec .f1 .p1 true) = "DEC.LOSS F1" := by decide

/-- `WAIT` on a busy block stays at its place in the program, and `rst` abandons a pending command (R119, R260). -/
theorem test_wait_and_rst :
    let s := { idle with csr := { Csrs.reset with busy := true }, delay := 2, host := ⟨[.wait, .rst], 5⟩ }
    (hostTurn s).host = ⟨[.wait, .rst], 5⟩ ∧ (hostTurn s).delay = 1 ∧
      (hostTurn { s with host := ⟨[.rst], 6⟩ }).csr = Csrs.reset := by decide

/-! ### Witnesses: states and operands that meet the hypotheses of each statement that has some, clause by clause at the
boundary of its range. The two clauses on the completion code `E_CODEC` of the block's own core have none: that core is
uninterpreted, so no concrete state can be shown to make it fail; `EncodeResult` and `DecodeResult` say the same of every core,
and their witnesses below use `TOY`. -/

/-- The idle block with the command word `w` pending and `d` host transactions to come before its completion. -/
def pending (w : Word) (d : Nat) : State := { idle with cmdReg := w, csr := { Csrs.reset with busy := true }, delay := d }

/-- The idle block with the length of `P0` set. -/
def lengthP0 (n : BitVec 10) : State := { idle with csr := { Csrs.reset with plen0 := n } }

/-- The idle block with a datagram of zeros but for its size field, and its length. -/
def sized (n : BitVec 10) (es : BitVec 16) : State :=
  { idle.writeBytes 0x4600 ([0, 0, 0, 0, 0, 0, 0, 0] ++ le16 es ++ [0, 0]) with csr := { Csrs.reset with rxdLen := n } }

theorem idle_inv : idle.Inv where
  params := by decide
  frames := by intro k; cases k <;> rfl
  memWf := by decide
  memRange := by decide
  plen := by intro k; cases k <;> decide
  txdLen := by decide
  rxdLen := by decide
  rmsOut := by decide
  lossPct := by decide

theorem witness_StepExecutesThePendingCommand :
    ((pending 0x1220 0).csr.busy = true ∧ (pending 0x1220 0).delay = 0 ∧ decode (pending 0x1220 0).cmdReg = .ok (.mix .f2 .f0 .f1)) ∧
    ((pending 0x33 5).csr.busy = true ∧ (pending 0x33 5).host.program = [] ∧ decode (pending 0x33 5).cmdReg = .ok .statsClr) := by
  decide

theorem witness_IllegalWordOnlyReportsIt :
    (pending 0x34 0).csr.busy = true ∧ (pending 0x34 0).delay = 0 ∧ wordWellFormed (pending 0x34 0).cmdReg = false := by decide

/-- Codes `OK` and another; `E_LINK`; a code that is not `E_CODEC`. -/
theorem witness_EveryCommandCompletesWithItsCode :
    expectedCode .statsClr idle = .ok ∧ expectedCode (.pktSend .p0 true true) (withPorts 0 false idle) = .link ∧
    expectedCode (.pktRecv .p0) (sized 11 0) = .short ∧ expectedCode (.pktRecv .p0) (sized 16 5) = .badSize ∧
    expectedCode (.dec .f0 .p0 false) (lengthP0 257) = .tooBig := by decide

theorem witness_ErrorsArePrecise :
    (∃ t, exec (.pktSend .p0 true false) (lengthP0 257) = .next t ∧ t.csr.err = .tooBig) ∧
    (∃ t, exec (.pktRecv .p0) (sized 11 0) = .next t ∧ t.csr.err = .short) ∧
    ∃ t, exec (.pktRecv .p0) (sized 16 5) = .next t ∧ t.csr.err = .badSize :=
  ⟨⟨_, rfl, by decide⟩, ⟨_, rfl, by decide⟩, ⟨_, rfl, by decide⟩⟩

theorem witness_MixResult : 3 < idle.params.frameLen := by decide

theorem witness_MixCorners :
    (∃ t, exec (.mix .f2 .f0 .f1) (loaded [1, 2, 3, 4] [5, 6, 7, 8]) = .next t) ∧
    3 < (loaded [1, 2, 3, 4] [5, 6, 7, 8]).params.frameLen ∧
    (0x8000 ≤ (0x8000 : BitVec 16).toNat ∧ 0x8000 ≤ (0xFFFF : BitVec 16).toNat) := ⟨⟨_, rfl⟩, by decide, by decide⟩

theorem witness_MixAccumulatorFits : 0x8000 ≤ 0x8000 ∧ 0 ≤ 0x8000 := by decide

/-- Below, at and above the knee, and the limiter off. -/
theorem witness_LimitResult :
    let s := loaded [100, 31128, 31129, -32768] [0, 0, 0, 0]
    s.csr.limEn = true ∧ 3 < s.params.frameLen ∧ |(s.sample .f0 1).toInt| ≤ s.csr.knee.toNat ∧
      |(s.sample .f0 2).toInt| > s.csr.knee.toNat ∧ { s.csr with limEn := false }.limEn = false := by decide

theorem witness_LimiterPeakBound :
    let s := loaded [0, 32767, -32767, 100] [0, 0, 0, 0]
    s.csr.limEn = true ∧ s.csr.knee = 31128 ∧ 31128 < 32767 ∧
      (∀ i, i < s.params.frameLen → |(s.sample .f0 i).toInt| ≤ (32767 : Nat)) ∧ ∃ t, exec (.limit .f1 .f0) s = .next t :=
  ⟨by decide, by decide, by decide, by decide, ⟨_, rfl⟩⟩

theorem witness_LimiterCurveShape :
    (-32768 : Sample).toInt ≤ (32767 : Sample).toInt ∧ (-32767 : Sample).toInt = -(32767 : Sample).toInt ∧
      (31129 : Sample).toInt = (31128 : BitVec 15).toNat + 1 := by decide

/-- The gate off, the level 0, and the smallest level that blends. -/
theorem witness_SidetoneResult : 3 < idle.params.frameLen ∧ idle.csr.level = 0 ∧
    { idle with csr := { Csrs.reset with level := 1 } }.csr.level ≠ 0 := by decide

theorem witness_SidetoneCorners :
    let s := { idle with csr := { Csrs.reset with level := 0x8000 } }
    (∃ t, exec (.sidetone .f2 .f0 .f0 true) s = .next t) ∧ 3 < s.params.frameLen ∧ 0x8000 ≤ s.csr.level.toNat :=
  ⟨⟨_, rfl⟩, by decide, by decide⟩

theorem witness_RmsOfConstantFrame :
    let s := loaded [-32768, -32768, -32768, -32768] [0, 0, 0, 0]
    1 ≤ s.params.frameLen ∧ (∀ i, i < s.params.frameLen → s.sample .f0 i = -32768) ∧ ∃ t, exec (.rms .f0) s = .next t :=
  ⟨by decide, by decide, ⟨_, rfl⟩⟩

/-- A core that succeeds and one that fails, in a legal configuration. -/
theorem witness_EncodeResult :
    paramsWellFormed small = true ∧
    (toy.enc idle.codecState (fun i => idle.sample .f0 i)).2.isSome = true ∧
    (toy.enc idle.codecState (fun i => (loaded [-32768, 0, 0, 0] [0, 0, 0, 0]).sample .f0 i)).2.isSome = false := by decide

/-- The concealment path both ways, a payload one byte too long, one of the largest length, and both results of a core. -/
theorem witness_DecodeResult :
    idle.csr.plen .p0 = 0 ∧
    ((lengthP0 257).params.maxPayload < ((lengthP0 257).csr.plen .p0).toNat ∧ (lengthP0 257).csr.plen .p0 ≠ 0) ∧
    (((lengthP0 256).csr.plen .p0).toNat ≤ (lengthP0 256).params.maxPayload ∧ (lengthP0 256).csr.plen .p0 ≠ 0) ∧
    (toy.dec encoded.codecState (encoded.payload .p0)).2.isSome = true ∧ (toy.dec encoded.codecState [1, 2, 3]).2.isSome = false := by
  decide

theorem witness_DecLossIgnoresThePayload : ∃ t, exec (.dec .f0 .p1 true) idle = .next t := ⟨_, rfl⟩

/-- A core that turns every frame into one byte and decodes everything. -/
def constantCore : Config.CodecCore small where
  init := ⟨[]⟩
  enc c _ := (c, some ⟨[1], by simp [small]⟩)
  dec c _ := (c, some fun _ => 0)
  plc c := (c, fun _ => 0)

theorem witness_EncodeThenDecodeCompletes :
    paramsWellFormed idle.params = true ∧ Config.RoundTrips constantCore ∧
    constantCore.enc idle.codecState (idle.frame .f0) = (idle.codecState, some ⟨[1], by simp [small]⟩) ∧ ([1] : List Byte) ≠ [] :=
  ⟨by decide, fun _ _ _ _ _ _ _ => rfl, rfl, by decide⟩

/-- One byte above the size limit, and at it with the link up and down. -/
theorem witness_PktSendResult :
    (lengthP0 257).params.maxPayload < (lengthP0 257).plen .p0 ∧ (lengthP0 256).plen .p0 ≤ (lengthP0 256).params.maxPayload ∧
    (withPorts 0 true (lengthP0 256)).inputLinkUp = true ∧ (withPorts 0 false (lengthP0 256)).inputLinkUp = false := by decide

/-- One byte short of a header; a size field one above what arrived and one above the limit; a header alone; the largest. -/
theorem witness_PktRecvResult :
    (sized 11 0).csr.rxdLen.toNat < 12 ∧
    (12 ≤ (sized 16 5).csr.rxdLen.toNat ∧ (sized 16 5).csr.rxdLen.toNat < 12 + ((sized 16 5).rxd 8).toNat) ∧
    (12 ≤ (sized 400 257).csr.rxdLen.toNat ∧ small.maxPayload < ((sized 400 257).rxd 8).toNat + 2 ^ 8 * ((sized 400 257).rxd 9).toNat) ∧
    12 + ((sized 12 0).rxd 8).toNat ≤ (sized 12 0).csr.rxdLen.toNat ∧
    12 + (((sized 268 256).rxd 8).toNat + 2 ^ 8 * ((sized 268 256).rxd 9).toNat) ≤ (sized 268 256).csr.rxdLen.toNat := by decide

theorem witness_LossPercentIsTheFloor : (0 : Word).toNat + (0 : Word).toNat = 0 ∧ 0 < (0 : Word).toNat + (1 : Word).toNat := by decide

/-- A gap, and the expected number itself. -/
theorem witness_InOrderDatagramConservesTheCount :
    (∃ t, exec (.pktRecv .p1) (toReceive 5) = .next t ∧ t.csr.err = .ok ∧
      ((toReceive 5).csr.rxLastSeq + 1).toNat ≤ t.csr.rxLastSeq.toNat) ∧
    (∃ t, exec (.pktRecv .p1) (toReceive 3) = .next t ∧ t.csr.err = .ok ∧
      ((toReceive 3).csr.rxLastSeq + 1).toNat ≤ t.csr.rxLastSeq.toNat) ∧
    (toReceive 5).csr.haveLast = true ∧ (toReceive 3).csr.haveLast = true :=
  ⟨⟨_, rfl, by decide, by decide⟩, ⟨_, rfl, by decide, by decide⟩, by decide, by decide⟩

/-- The source's sequence 0, 1, 2, 5, 6. -/
theorem witness_LossEstimatorExactOnIncreasingStreams :
    paramsWellFormed idle.params = true ∧ ([0xAA, 0xBB] : List Byte).length ≤ idle.params.maxPayload ∧
    idle.csr.haveLast = false ∧ idle.csr.pktsRecv = 0 ∧ idle.csr.pktsLost = 0 ∧
    ([0, 1, 2, 5, 6] : List Word).Pairwise (fun x y => x.toNat < y.toNat) := by decide

theorem witness_SentDatagramIsReceivedUnchanged :
    paramsWellFormed toSend.params = true ∧ idle.params = toSend.params ∧
    ∃ t, exec (.pktSend .p0 true false) toSend = .next t ∧ t.csr.err = .ok := ⟨by decide, rfl, ⟨_, rfl, by decide⟩⟩

theorem witness_SendAndReceiveCommute :
    idle.Inv ∧ PReg.p0 ≠ PReg.p1 ∧
    ∃ a b c d, exec (.pktSend .p0 true false) idle = .next a ∧ exec (.pktRecv .p1) a = .next b ∧
      exec (.pktRecv .p1) idle = .next c ∧ exec (.pktSend .p0 true false) c = .next d :=
  ⟨idle_inv, by decide, ⟨_, _, _, _, rfl, rfl, rfl, rfl⟩⟩

theorem witness_StepKeepsTheInvariant : idle.Inv ∧ step idle = .next idle := ⟨idle_inv, rfl⟩

theorem witness_ResetMeetsTheInvariant : paramsWellFormed ⟨1, 1⟩ = true ∧ paramsWellFormed ⟨1024, 500⟩ = true := by decide

theorem witness_OnlyTheDestinationFrameChanges :
    (∃ t, exec (.mix .f2 .f0 .f1) idle = .next t) ∧ destination (.mix .f2 .f0 .f1) ≠ some .f0 := ⟨⟨_, rfl⟩, by decide⟩

/-- A command that is none of those named, each of those that only one clause names, and a host write. -/
theorem witness_TransportStatsOwnership :
    (∃ t, exec (.mix .f2 .f0 .f1) idle = .next t) ∧ (∃ t, exec .statsClr idle = .next t) ∧
    (∃ t, exec (.pktRecv .p0) idle = .next t) ∧ (∃ t, exec (.pktSend .p0 true true) idle = .next t) ∧
    ∃ t, memWrite idle 0x18 2 5 = some t := ⟨⟨_, rfl⟩, ⟨_, rfl⟩, ⟨_, rfl⟩, ⟨_, rfl⟩, ⟨_, rfl⟩⟩

/-- A completion that samples the ports, one that draws a tail, one that does neither, and the host's `rst` and command write. -/
theorem witness_HiddenStateAndPortsOwnership :
    (∃ t, step (pending 0x31 0) = .next t) ∧ (∃ t, step (pending 0x10 0) = .next t) ∧ (∃ t, step (pending 0x33 0) = .next t) ∧
    (∃ t, step { idle with host := ⟨[.rst], 0⟩ } = .next t) ∧
    ∃ t, step { idle with host := ⟨[.write 0 2 0x33], 0⟩ } = .next t := ⟨⟨_, rfl⟩, ⟨_, rfl⟩, ⟨_, rfl⟩, ⟨_, rfl⟩, ⟨_, rfl⟩⟩

theorem witness_BusyAdmitsOnlyTheStatusRead :
    (pending 0x0A21 2).csr.busy = true ∧ ¬ ((0x0004 : BitVec 16) = 0x0004 ∧ (1 : BitVec 2) = 2) := by decide

/-- A second command word while one is pending, and a write of a read-only register of an idle block. -/
theorem witness_RefusedWriteChangesNothing :
    let b := { pending 0x0A21 2 with host := ⟨[.write 0 2 0x33], 1⟩ }
    let s := { idle with host := ⟨[.write 0x58 2 1], 0⟩ }
    b.delay ≠ 0 ∧ b.host.program = .write 0 2 0x33 :: [] ∧ (memWrite b 0 2 0x33).isNone ∧
      s.csr.busy = false ∧ s.host.program = .write 0x58 2 1 :: [] ∧ (memWrite s 0x58 2 1).isNone := by decide

/-- A write of a register and a write of `CMD`. -/
theorem witness_AdmittedWriteTakesEffect :
    let s := { idle with host := ⟨[.write 0x18 2 5], 0⟩ }
    let c := { idle with host := ⟨[.write 0 2 0x33], 0⟩ }
    s.host.program = .write 0x18 2 5 :: [] ∧ (∃ t, memWrite s 0x18 2 5 = some t) ∧
      c.host.program = .write 0 2 0x33 :: [] ∧ ∃ t, memWrite c 0 2 0x33 = some t := ⟨rfl, ⟨_, rfl⟩, rfl, ⟨_, rfl⟩⟩

/-- `WAIT` with a command pending and with none. -/
theorem witness_WaitPollsStatus :
    let b := { pending 0x33 1 with host := ⟨[.wait], 0⟩ }
    let s := { idle with host := ⟨[.wait], 0⟩ }
    b.host.program = .wait :: [] ∧ b.csr.busy = true ∧ b.delay ≠ 0 ∧ s.host.program = .wait :: [] ∧ s.csr.busy = false := by decide

/-- A read that is admitted and one that is not, with the block idle and with it busy. -/
theorem witness_ReadsChangeNothing :
    let s := { idle with host := ⟨[.read 0x14 2], 0⟩ }
    let b := { pending 0x33 1 with host := ⟨[.read 0x14 2], 0⟩ }
    s.csr.busy = false ∧ s.host.program = .read 0x14 2 :: [] ∧ memRead s 0x14 2 = some 0x80008000 ∧
      b.delay ≠ 0 ∧ b.host.program = .read 0x14 2 :: [] ∧ memRead b 0x14 2 = none := by decide

theorem witness_MisalignedAccessRefused :
    (0x1001 : BitVec 16).toNat % 2 ≠ 0 ∧ (0x41FE : BitVec 16).toNat % 4 ≠ 0 := by decide

/-- Both ends of each hole of the address map. -/
theorem witness_UnmappedAccessRefused :
    (0x0060 ≤ (0x0060 : BitVec 16).toNat ∧ (0x0FFF : BitVec 16).toNat ≤ 0x0FFF) ∧
    (0x3000 ≤ (0x3000 : BitVec 16).toNat ∧ (0x3FFF : BitVec 16).toNat ≤ 0x3FFF) ∧ 0x4800 ≤ (0x4800 : BitVec 16).toNat := by decide

/-- The last sample, and the first access past it of each width. -/
theorem witness_FrameWindow :
    idle.Inv ∧ idle.csr.busy = false ∧ 3 < idle.params.frameLen ∧
    (widthOf 0 = some 1 ∧ 2 * idle.params.frameLen < 8 + 1) ∧ (widthOf 1 = some 2 ∧ 2 * idle.params.frameLen < 7 + 2) ∧
    (widthOf 2 = some 4 ∧ 2 * idle.params.frameLen < 0x7FC + 4) :=
  ⟨idle_inv, by decide, by decide, by decide, by decide, by decide⟩

/-- The last pair of samples, and both ends of a window. -/
theorem witness_FrameWordsAndBytes :
    idle.Inv ∧ idle.csr.busy = false ∧ 2 * 1 + 1 < idle.params.frameLen ∧ (0x000 < 0x800 ∧ 0x7FF < 0x800) :=
  ⟨idle_inv, by decide, by decide, by decide⟩

/-- The first and the last word of the buffers, and the read-only one between. -/
theorem witness_BufferWindows :
    idle.csr.busy = false ∧ widthOf 2 = some 4 ∧
    ((0x4000 : BitVec 16).toNat % 4 = 0 ∧ 0x4000 ≤ (0x4000 : BitVec 16).toNat) ∧
    ((0x47FC : BitVec 16).toNat % 4 = 0 ∧ (0x47FC : BitVec 16).toNat < 0x4800) ∧
    (¬ (0x4400 ≤ (0x43FC : BitVec 16).toNat) ∧ ¬ ((0x4600 : BitVec 16).toNat < 0x4600)) ∧
    (0x4400 ≤ (0x4400 : BitVec 16).toNat ∧ (0x45FC : BitVec 16).toNat < 0x4600) := by decide

theorem witness_RegisterReads : idle.csr.busy = false := by decide

theorem witness_RegisterWriteReadBack : idle.csr.busy = false ∧ (512 : Word).toNat ≤ 512 ∧ ¬ (513 : Word).toNat ≤ 512 := by decide

theorem witness_CmdWriteStartsTheCommand : (pending 0x33 1).csr.busy = true ∧ idle.csr.busy = false := by decide

/-- An idle block, and one that abandons a pending command. -/
theorem witness_RstTakesTheResetState :
    let s := { idle with host := ⟨[.rst], 0⟩ }
    let b := { pending 0x33 1 with host := ⟨[.rst], 0⟩ }
    s.csr.busy = false ∧ s.host.program = .rst :: [] ∧ b.delay ≠ 0 ∧ b.host.program = .rst :: [] := by decide

theorem witness_PendingCommandCompletes : (pending 0x33 7).csr.busy = true := by decide

end Sys2Proof.Tests
end

section
/-! SUPPORT. The machine's invariant: each shared operation keeps it, hence each command, each admitted bus write, the host's
turn and the step keep it. A rule whose operation leaves a field of the invariant alone takes that field from the old state. -/

namespace Sys2Proof.Machine

/-! ### The parts of the invariant -/

theorem lengthWritten_le {old : BitVec 10} (h : old.toNat ≤ Config.bufCap) (v : Word) :
    (lengthWritten old v).toNat ≤ Config.bufCap := by
  unfold lengthWritten
  split
  · next hv => exact Nat.le_trans (by simpa using Nat.mod_le ..) hv
  · exact h

/-- The whole of a payload buffer is inside the buffer windows (R72). -/
theorem payloadBase_range (k : PReg) : 0x4000 ≤ payloadBase k ∧ payloadBase k + Config.bufCap ≤ 0x4800 := by
  cases k <;> decide

/-- No datagram was counted and none was lost: the percentage that reset and both clears leave (R190, R215, R261). -/
theorem losspct_zero : losspct 0 0 = 0 := rfl

/-- What `ENC` writes fills its buffer: the encoded bytes and the unspecified rest (R135). -/
theorem encoded_length {b : List Byte} (h : b.length ≤ Config.bufCap) (draw : Nat) :
    (b ++ scratchBytes draw b.length).length = Config.bufCap := by
  simp [scratchBytes]; omega

section Rules

variable {s : State} (h : s.Inv)
include h

/-- R6 in the form the length bounds use: the payload limit leaves room for a header in every buffer. -/
theorem State.Inv.maxPayload_le : Config.hdrLen + s.params.maxPayload ≤ Config.bufCap := by
  have := params_bounds h.params
  simp only [Config.hdrLen, Config.bufCap]; omega

/-! ### Shared operations -/

theorem State.Inv.emit (e : Event) : (s.emit e).Inv := { h with }
theorem State.Inv.done : s.done.Inv := { h with }
theorem State.Inv.raise (c : CompletionCode) : (s.raise c).Inv := { h with }
theorem State.Inv.consume (r : List BusOp) : (s.consume r).Inv := { h with }
theorem State.Inv.startCommand (w : Word) : (s.startCommand w).Inv := { h with }
theorem State.Inv.drawTaken : s.drawTaken.Inv := { h with }
theorem State.Inv.portsSampled : s.portsSampled.Inv := { h with }
theorem State.Inv.setCodecState (c : Config.CodecState) : State.Inv { s with codecState := c } := { h with }
theorem State.Inv.setDelay (n : Nat) : State.Inv { s with delay := n } := { h with }

/-! ### Registers the invariant does not name -/

theorem State.Inv.setEncErrCnt (n : Word) : State.Inv { s with csr := { s.csr with encErrCnt := n } } := { h with }
theorem State.Inv.setDecErrCnt (n : Word) : State.Inv { s with csr := { s.csr with decErrCnt := n } } := { h with }
theorem State.Inv.setTxFailCnt (n : Word) : State.Inv { s with csr := { s.csr with txFailCnt := n } } := { h with }

theorem State.Inv.setSendCounts (n m : Word) :
    State.Inv { s with csr := { s.csr with pktsSent := n, bytesSent := m } } := { h with }

theorem State.Inv.clearSequence : State.Inv { s with csr := { s.csr with
    txSeq := 0, rxLastSeq := 0, haveLast := false, rxPtt := false, rxCall := false } } := { h with }

/-! ### Frames, memory and lengths -/

theorem State.Inv.setFrame (k : FReg) (f : Config.Frame s.params) : (s.setFrame k f).Inv :=
  { h with frames := fun j => setFrame_length s k j f h.frames }

theorem State.Inv.setSample (k : FReg) (i : Nat) (v : Sample) : (s.setSample k i v).Inv :=
  { h with frames := fun j => (setSample_length s k j i v).trans (h.frames j) }

theorem State.Inv.writeBytes {a : Nat} {bs : List Byte} (ha : 0x4000 ≤ a) (hb : a + bs.length ≤ 0x4800) :
    (s.writeBytes a bs).Inv :=
  { h with memWf := write_wf h.memWf a bs, memRange := write_range h.memRange ha hb }

theorem State.Inv.writePayload (k : PReg) {bs : List Byte} (hb : bs.length ≤ Config.bufCap) :
    (s.writeBytes (payloadBase k) bs).Inv :=
  have := payloadBase_range k
  h.writeBytes (by omega) (by omega)

/-- A length register takes any value up to the buffer size (R46). -/
theorem State.Inv.setCsrPlen (k : PReg) {n : BitVec 10} (hn : n.toNat ≤ Config.bufCap) :
    State.Inv { s with csr := s.csr.setPlen k n } :=
  { h with
    plen := fun j => by
      rw [State.plen, plen_setPlen]
      split
      · exact hn
      · exact h.plen j
    txdLen := by simpa using h.txdLen
    rxdLen := by simpa using h.rxdLen
    rmsOut := by simpa using h.rmsOut
    lossPct := by simpa using h.lossPct }

theorem State.Inv.setPlen (k : PReg) {n : Nat} (hn : n ≤ Config.bufCap) : (s.setPlen k n).Inv :=
  h.setCsrPlen k (Nat.le_trans (by simpa using Nat.mod_le ..) hn)

/-! ### The codec commands -/

theorem State.Inv.encodeWith (core : Config.CodecCore s.params) (pd : PReg) (fa : FReg) :
    (encodeWith s core pd fa).Inv := by
  obtain ⟨c, b, -, e⟩ | ⟨c, -, e⟩ := encodeWith_cases s core pd fa
  · have hb : b.val.length ≤ Config.bufCap := Nat.le_trans b.property (by have := h.maxPayload_le; omega)
    rw [e]
    exact ((((h.setCodecState c).writePayload pd (encoded_length hb _).le).drawTaken).setPlen pd hb).done
  · rw [e]
    exact ((h.setCodecState c).setEncErrCnt _).raise .codec

theorem State.Inv.decodeWith (core : Config.CodecCore s.params) (fd : FReg) (pa : PReg) (loss : Bool) :
    (decodeWith s core fd pa loss).Inv := by
  obtain ⟨c, f, e⟩ | ⟨-, e⟩ | ⟨c, e⟩ := decodeWith_cases s core fd pa loss <;> rw [e]
  · exact ((h.setFrame fd f).setCodecState c).done
  · exact h.raise .tooBig
  · exact ((h.setCodecState c).setDecErrCnt _).raise .codec

/-! ### The packet commands -/

/-- The relation of R51 survives a clear of both of its counters, since the percentage is cleared with them. -/
theorem State.Inv.clearStats : State.Inv { s with csr := s.csr.clearStats } := { h with lossPct := losspct_zero.symm }

/-- A request within the size limit leaves a datagram of legal length, inside `TXD` (R47, R195). -/
theorem State.Inv.packetBuilt {pa : PReg} (hl : s.plen pa ≤ s.params.maxPayload) (ptt call : Bool) :
    (packetBuilt s pa ptt call).Inv := by
  have hcap := h.maxPayload_le
  simp only [Config.hdrLen, Config.bufCap] at hcap
  have hw : (s.portsSampled.writeBytes txdBase
      (serializePacket s.csr.txSeq s.inputTimeUs ptt call (s.payload pa))).Inv := by
    refine h.portsSampled.writeBytes (by decide) ?_
    simp only [serializePacket_length, payload_length, Config.hdrLen, txdBase]; omega
  have htxd : (BitVec.ofNat 10 (Config.hdrLen + s.plen pa)).toNat = 12 + s.plen pa := by
    rw [BitVec.toNat_ofNat, Config.hdrLen, Nat.mod_eq_of_lt (by omega)]
  exact { hw with txdLen := .inr ⟨htxd ▸ Nat.le_add_right 12 _, htxd ▸ Nat.add_le_add_left hl 12⟩ }

theorem State.Inv.packetSent {pa : PReg} (hl : s.plen pa ≤ s.params.maxPayload) (ptt call : Bool) :
    (packetSent s pa ptt call).Inv :=
  (((h.packetBuilt hl ptt call).setSendCounts _ _).emit _).done

theorem State.Inv.packetFailed {pa : PReg} (hl : s.plen pa ≤ s.params.maxPayload) (ptt call : Bool) :
    (packetFailed s pa ptt call).Inv :=
  ((h.packetBuilt hl ptt call).setTxFailCnt _).raise .link

/-- An accepted datagram recomputes the percentage from the new counters, and its payload fits its buffer (R51, R203, R208). -/
theorem State.Inv.packetReceived (ha : rxAccepted s) (pd : PReg) : (packetReceived s pd).Inv := by
  have hr : State.Inv { s with csr := s.csr.received s.rxSeq (s.rxd 10) } := { h with lossPct := rfl }
  have hn : s.rxSize ≤ Config.bufCap := by
    obtain ⟨-, hsize, -⟩ := ha
    have := h.maxPayload_le; omega
  exact (((hr.writePayload pd (by simpa using hn)).setPlen pd hn).emit .rxStrobe).done

/-! ### Every command -/

theorem State.Inv.rms (fa : FReg) :
    State.Inv { s with csr := { s.csr with rmsOut := BitVec.ofNat 16 (rmsLevel (s.sample fa) s.params.frameLen) } } :=
  { h with rmsOut := Nat.le_trans (by simpa using Nat.mod_le ..) (rmsLevel_le (s.sample fa) s.params.frameLen) }

/-- Every command keeps the invariant. -/
theorem State.Inv.exec {i : Instr} {t : State} (he : exec i s = .next t) : t.Inv := by
  cases i with
  | enc pd fa => exact Host.Outcome.next.inj he ▸ h.encodeWith _ pd fa
  | dec fd pa loss => exact Host.Outcome.next.inj he ▸ h.decodeWith _ fd pa loss
  | mix fd fa fb => exact Host.Outcome.next.inj he ▸ (h.setFrame fd _).done
  | limit fd fa => exact Host.Outcome.next.inj he ▸ (h.setFrame fd _).done
  | sidetone fd fmic fin gate => exact Host.Outcome.next.inj he ▸ (h.setFrame fd _).done
  | rms fa => exact Host.Outcome.next.inj he ▸ (h.rms fa).done
  | pktInit => exact Host.Outcome.next.inj he ▸ h.clearStats.clearSequence.done
  | pktSend pa ptt call =>
    obtain ⟨-, e⟩ | ⟨hl, -, e⟩ | ⟨hl, -, e⟩ := execPktSend_cases s pa ptt call
    · exact Host.Outcome.next.inj (e.symm.trans he) ▸ h.raise .tooBig
    · exact Host.Outcome.next.inj (e.symm.trans he) ▸ h.packetSent hl ptt call
    · exact Host.Outcome.next.inj (e.symm.trans he) ▸ h.packetFailed hl ptt call
  | pktRecv pd =>
    obtain ⟨-, e⟩ | ⟨-, -, e⟩ | ⟨ha, e⟩ := execPktRecv_cases s pd
    · exact Host.Outcome.next.inj (e.symm.trans he) ▸ h.raise .short
    · exact Host.Outcome.next.inj (e.symm.trans he) ▸ h.raise .badSize
    · exact Host.Outcome.next.inj (e.symm.trans he) ▸ h.packetReceived ha pd
  | statsClr => exact Host.Outcome.next.inj he ▸ h.clearStats.done

/-! ### The host -/

theorem State.Inv.csrWrite {t : State} {v : Word} {r : CsrName} (hw : csrWrite s v r = some t) : t.Inv := by
  obtain ⟨-, rfl⟩ | ⟨-, rfl⟩ | ⟨-, rfl⟩ | ⟨-, rfl⟩ | ⟨-, rfl⟩ | ⟨-, rfl⟩ | ⟨-, rfl⟩ | ⟨-, rfl⟩ | ⟨-, rfl⟩ :=
    csrWrite_cases hw
  · exact h.startCommand v
  · exact { h with }
  · exact { h with }
  · exact { h with }
  · exact { h with }
  · exact { h with }
  · exact h.setCsrPlen .p0 (lengthWritten_le (h.plen .p0) v)
  · exact h.setCsrPlen .p1 (lengthWritten_le (h.plen .p1) v)
  · exact { h with rxdLen := lengthWritten_le h.rxdLen v }

theorem State.Inv.memWrite {t : State} {a : BitVec 16} {z : BitVec 2} {v : Word} (hw : memWrite s a z v = some t) :
    t.Inv := by
  obtain ⟨-, ⟨r, hr⟩ | ⟨k, i, x, rfl⟩ | ⟨k, i, x, y, rfl⟩ | ⟨n, hl, rfl⟩⟩ := memWrite_cases hw
  · exact h.csrWrite hr
  · exact h.setSample k i x
  · exact (h.setSample k i x).setSample k (i + 1) y
  · obtain ⟨hlo, hhi, hin, -⟩ := locate_bytes hl
    exact h.writeBytes hlo (by rw [leBytes_length]; omega)

end Rules

/-- The invariant holds after reset (R261). -/
theorem resetWith_inv {p : Config.Params} (hp : paramsWellFormed p = true) (e : Nat) : (State.resetWith p e).Inv where
  params := hp
  frames := resetWith_frame_length p e
  memWf := List.Pairwise.nil
  memRange := by simp
  plen := by intro k; cases k <;> exact Nat.zero_le _
  txdLen := .inl rfl
  rxdLen := Nat.zero_le _
  rmsOut := Nat.zero_le _
  lossPct := losspct_zero.symm

theorem State.Inv.resetBlock {s : State} (h : s.Inv) : s.resetBlock.Inv :=
  have hr := resetWith_inv h.params (s.env.epoch + 1)
  { hr with }

theorem State.Inv.hostTurn {s : State} (h : s.Inv) : (hostTurn s).Inv := by
  obtain ⟨-, e⟩ | ⟨a, z, r, -, e⟩ | ⟨a, z, v, r, -, -, e⟩ | ⟨a, z, v, r, t, -, hw, e⟩ | ⟨r, -, -, e⟩ | ⟨r, -, -, e⟩ |
    ⟨r, -, e⟩ := hostTurn_cases s <;> rw [e]
  · exact h
  · exact (h.consume r).emit _
  · exact (h.consume r).emit _
  · exact ((h.consume r).memWrite hw).emit _
  · exact (h.setDelay _).emit _
  · exact (h.consume r).emit _
  · exact (h.consume r).resetBlock

/-- Every step keeps the invariant, whoever moves. -/
theorem State.Inv.step {s t : State} (h : s.Inv) (hs : step s = .next t) : t.Inv := by
  obtain ⟨-, i, -, he⟩ | ⟨-, -, rfl⟩ | ⟨-, rfl⟩ := step_cases hs
  · exact h.exec he
  · exact h.raise .illegal
  · exact h.hostTurn

end Sys2Proof.Machine
end

section
/-! The obligations of 00_scope.md. -/

namespace Sys2Proof.Machine

/-- Settles O34: each shared operation keeps the invariant, and a step is a composition of them. -/
theorem stepKeepsTheInvariant : Obligations.StepKeepsTheInvariant :=
  fun _ _ h hs => h.step hs

end Sys2Proof.Machine
end

section
/-! SUPPORT. Registers over the bus: the value a register read gives, and what is read back after a register was written. -/

namespace Sys2Proof.Machine

/-! ### A register over the bus -/

/-- A 4-byte read of a register of an idle block, as a number (R88). -/
theorem memRead_toNat {s : State} {a : BitVec 16} {r : CsrName} {w : Word} {n : Nat} (hb : s.csr.busy = false)
    (h : csrAtOffset a.toNat = some r) (hr : csrRead s.csr r = some w) (hn : w.toNat = n) :
    ∃ w : Word, memRead s a 2 = some w ∧ w.toNat = n :=
  ⟨w, (memRead_csr hb h).trans hr, hn⟩

/-- `CFG` as a number (R29). -/
theorem cfgWord_toNat (b : Bool) : (0#31 ++ BitVec.ofBool b).toNat = b.toNat := by
  rw [zero_append_toNat, BitVec.toNat_ofBool]

/-- A 4-byte write of a read-only register gets `herr` (R89). -/
theorem memWrite_readOnly {s : State} {a : BitVec 16} {r : CsrName} {v : Word} (hb : s.csr.busy = false)
    (h : csrAtOffset a.toNat = some r) (hr : csrWrite s v r = none) : memWrite s a 2 v = none :=
  (memWrite_csr hb h).trans hr

/-- Bit 0 of `STATUS` is `BUSY` (R27). -/
theorem statusWord_busy (c : Csrs) : (statusWord c).getLsbD 0 = c.busy := by
  rw [statusWord_getLsbD, if_pos rfl]

/-! ### Register words after a write -/

/-- Clearing the flags written as 1 clears bits 6:1 of the register word and no other (R28). -/
theorem errFlagsWord_cleared (c : Csrs) (v : Word) :
    errFlagsWord { c with errFlags := errFlagsCleared c.errFlags v } = errFlagsWord c &&& ~~~(v &&& 0x7E) := by
  refine BitVec.eq_of_getLsbD_eq fun k hk => ?_
  rw [BitVec.getLsbD_and, BitVec.getLsbD_not, BitVec.getLsbD_and, errFlagsWord_getLsbD, errFlagsWord_getLsbD]
  simp only [errFlagsCleared, BitVec.getLsbD_and, BitVec.getLsbD_not, BitVec.getLsbD_extractLsb', hk, decide_true,
    Bool.true_and]
  by_cases h : k < 7
  · interval_cases k <;> simp
  · rw [if_neg (by omega), if_neg (by omega), BitVec.getLsbD_of_ge c.errFlags (k - 1) (by omega), Bool.false_and,
      Bool.false_and]

/-- A register that keeps the low `n` bits of what is written reads as the word with every other bit cleared (R49). -/
theorem zero_append_setWidth (a n : Nat) (v : BitVec (a + n)) :
    0#a ++ v.setWidth n = v &&& BitVec.ofNat (a + n) (2 ^ n - 1) := by
  have hlt : 2 ^ n - 1 < 2 ^ (a + n) :=
    Nat.lt_of_lt_of_le (Nat.sub_one_lt (by simp)) (Nat.pow_le_pow_right (by omega) (by omega))
  refine BitVec.eq_of_toNat_eq ?_
  rw [zero_append_toNat, BitVec.toNat_setWidth, BitVec.toNat_and, BitVec.toNat_ofNat, Nat.mod_eq_of_lt hlt,
    Nat.and_two_pow_sub_one_eq_mod]

/-- `CFG` keeps bit 0 of what is written (R29). -/
theorem cfgWord_written (v : Word) : 0#31 ++ BitVec.ofBool (v.getLsbD 0) = v &&& 1 := by
  refine BitVec.eq_of_toNat_eq ?_
  rw [cfgWord_toNat, BitVec.toNat_and, BitVec.getLsbD, Nat.toNat_testBit]
  simp

/-- `MIX_GAIN` keeps the word written (R31). -/
theorem mixGain_written (v : Word) : v.extractLsb' 16 16 ++ v.extractLsb' 0 16 = v := by
  refine BitVec.eq_of_toNat_eq ?_
  rw [mixGain_toNat, BitVec.extractLsb'_toNat, BitVec.extractLsb'_toNat, Nat.shiftRight_eq_div_pow]
  omega

/-- A length register keeps a length up to 512 and drops a greater one (R46, R48). -/
theorem lengthWord_written (old : BitVec 10) (v : Word) :
    0#22 ++ lengthWritten old v = if v.toNat ≤ 512 then v else 0#22 ++ old := by
  by_cases h : v.toNat ≤ 512
  · rw [if_pos h, lengthWritten, if_pos (show v.toNat ≤ Config.bufCap from h)]
    refine BitVec.eq_of_toNat_eq ?_
    rw [zero_append_toNat, BitVec.toNat_setWidth, Nat.mod_eq_of_lt (by omega)]
  · rw [if_neg h, lengthWritten, if_neg (show ¬ v.toNat ≤ Config.bufCap from h)]

/-- A length register read back after a write of it: the length written, or what it held before (R46, R48). -/
theorem memRead_lengthWritten {s t : State} {a : BitVec 16} {r : CsrName} {old : BitVec 10} {v : Word}
    (hs : s.csr.busy = false) (ht : t.csr.busy = false) (h : csrAtOffset a.toNat = some r)
    (hold : csrRead s.csr r = some (0#22 ++ old)) (hnew : csrRead t.csr r = some (0#22 ++ lengthWritten old v)) :
    memRead t a 2 = if v.toNat ≤ 512 then some v else memRead s a 2 := by
  rw [memRead_csr hs h, memRead_csr ht h, hold, hnew, lengthWord_written, apply_ite some]

end Sys2Proof.Machine
end

section
/-! SUPPORT. Every result a command can have, as one relation; what each command, each host write and the host's turn leave
unchanged; `WAIT` as a step. -/

namespace Sys2Proof.Machine

/-! ### The results of a command -/

/-- The results a command can have: the command, the state before it and the state after it. What the codec core answers, and
which error a command finds, is left free: a result is listed for what it writes. -/
inductive Completes : Instr → State → State → Prop where
  /-- Any error that is found before anything is changed. -/
  | raised (i : Instr) (s : State) (c : CompletionCode) : Completes i s (s.raise c)
  | encoded (pd : PReg) (fa : FReg) (s : State) (c : Config.CodecState) (b : List Byte) :
      Completes (.enc pd fa) s (encodeOk s pd c b)
  | encodeFailed (pd : PReg) (fa : FReg) (s : State) (c : Config.CodecState) : Completes (.enc pd fa) s (encodeErr s c)
  | decoded (fd : FReg) (pa : PReg) (loss : Bool) (s : State) (c : Config.CodecState) (f : Config.Frame s.params) :
      Completes (.dec fd pa loss) s (decodeOk s fd c f)
  | decodeFailed (fd : FReg) (pa : PReg) (loss : Bool) (s : State) (c : Config.CodecState) :
      Completes (.dec fd pa loss) s (decodeErr s c)
  /-- `MIX`, `LIMIT` and `SIDETONE`. -/
  | frameSet {i : Instr} {fd : FReg} (hd : destination i = some fd) (s : State) (f : Config.Frame s.params) :
      Completes i s (s.setFrame fd f).done
  | measured (fa : FReg) (s : State) (r : BitVec 16) :
      Completes (.rms fa) s { s with csr := { s.csr with rmsOut := r } }.done
  | initialized (s : State) : Completes .pktInit s { s with csr := { s.csr.clearStats with
      txSeq := 0, rxLastSeq := 0, haveLast := false, rxPtt := false, rxCall := false } }.done
  | sent (pa : PReg) (ptt call : Bool) (s : State) (h : s.plen pa ≤ s.params.maxPayload) :
      Completes (.pktSend pa ptt call) s (packetSent s pa ptt call)
  | sendFailed (pa : PReg) (ptt call : Bool) (s : State) (h : s.plen pa ≤ s.params.maxPayload) :
      Completes (.pktSend pa ptt call) s (packetFailed s pa ptt call)
  | received (pd : PReg) (s : State) : Completes (.pktRecv pd) s (packetReceived s pd)
  | cleared (s : State) : Completes .statsClr s { s with csr := s.csr.clearStats }.done

/-- A command ends in one of these results (R271). -/
theorem exec_completes {i : Instr} {s t : State} (h : exec i s = .next t) : Completes i s t := by
  cases i with
  | enc pd fa =>
    obtain rfl := Host.Outcome.next.inj h
    obtain ⟨c, b, -, e⟩ | ⟨c, -, e⟩ := encodeWith_cases s (Config.codecCore s.params) pd fa <;> rw [e]
    · exact .encoded ..
    · exact .encodeFailed ..
  | dec fd pa loss =>
    obtain rfl := Host.Outcome.next.inj h
    obtain ⟨c, f, e⟩ | ⟨-, e⟩ | ⟨c, e⟩ := decodeWith_cases s (Config.codecCore s.params) fd pa loss <;> rw [e]
    · exact .decoded ..
    · exact .raised ..
    · exact .decodeFailed ..
  | mix fd fa fb => exact Host.Outcome.next.inj h ▸ .frameSet rfl s _
  | limit fd fa => exact Host.Outcome.next.inj h ▸ .frameSet rfl s _
  | sidetone fd fmic fin gate => exact Host.Outcome.next.inj h ▸ .frameSet rfl s _
  | rms fa => exact Host.Outcome.next.inj h ▸ .measured fa s _
  | pktInit => exact Host.Outcome.next.inj h ▸ .initialized s
  | pktSend pa ptt call =>
    obtain ⟨-, e⟩ | ⟨hl, -, e⟩ | ⟨hl, -, e⟩ := execPktSend_cases s pa ptt call <;>
      obtain rfl := Host.Outcome.next.inj (e.symm.trans h)
    · exact .raised ..
    · exact .sent _ _ _ _ hl
    · exact .sendFailed _ _ _ _ hl
  | pktRecv pd =>
    obtain ⟨-, e⟩ | ⟨-, -, e⟩ | ⟨-, e⟩ := execPktRecv_cases s pd <;>
      obtain rfl := Host.Outcome.next.inj (e.symm.trans h)
    · exact .raised ..
    · exact .raised ..
    · exact .received ..
  | statsClr => exact Host.Outcome.next.inj h ▸ .cleared s

/-! ### Frame registers -/

/-- Only the destination frame of a command is written (R22). -/
theorem Completes.frames_get {i : Instr} {s t : State} {k : FReg} (h : Completes i s t) (hk : destination i ≠ some k) :
    t.frames.get k = s.frames.get k := by
  cases h with
  | decoded fd pa loss s c f => exact frames_get_set_other _ _ _ _ fun e => hk (e ▸ rfl)
  | frameSet hd s f => exact frames_get_set_other _ _ _ _ fun e => hk (e ▸ hd)
  | _ => rfl

/-! ### The transport registers -/

/-- The sequence number and the counters of the sending direction are the same (R34, R37, R40, R43). -/
structure Csrs.SendSideKept (c d : Csrs) : Prop where
  txSeq     : d.txSeq = c.txSeq
  pktsSent  : d.pktsSent = c.pktsSent
  bytesSent : d.bytesSent = c.bytesSent
  txFailCnt : d.txFailCnt = c.txFailCnt

/-- The last sequence number, `RX_INFO`, the counters and the percentage of the receiving direction are the same (R35, R36,
R38, R39, R41, R42). -/
structure Csrs.ReceiveSideKept (c d : Csrs) : Prop where
  rxLastSeq : d.rxLastSeq = c.rxLastSeq
  rxPtt     : d.rxPtt = c.rxPtt
  rxCall    : d.rxCall = c.rxCall
  haveLast  : d.haveLast = c.haveLast
  pktsRecv  : d.pktsRecv = c.pktsRecv
  pktsLost  : d.pktsLost = c.pktsLost
  bytesRecv : d.bytesRecv = c.bytesRecv
  lossPct   : d.lossPct = c.lossPct

theorem Csrs.SendSideKept.setPlen (c : Csrs) (k : PReg) (n : BitVec 10) : c.SendSideKept (c.setPlen k n) := by
  cases k <;> exact ⟨rfl, rfl, rfl, rfl⟩

theorem Csrs.ReceiveSideKept.setPlen (c : Csrs) (k : PReg) (n : BitVec 10) : c.ReceiveSideKept (c.setPlen k n) := by
  cases k <;> exact ⟨rfl, rfl, rfl, rfl, rfl, rfl, rfl, rfl⟩

/-- The sending direction's registers belong to `PKT_SEND` and the two clearing commands (R50). -/
theorem Completes.sendSideKept {i : Instr} {s t : State} (h : Completes i s t)
    (hs : ∀ pa ptt call, i ≠ .pktSend pa ptt call) (hi : i ≠ .pktInit) (hc : i ≠ .statsClr) : s.csr.SendSideKept t.csr := by
  cases h with
  | encoded pd fa s c b => exact { Csrs.SendSideKept.setPlen s.csr pd _ with }
  | received pd s => exact { Csrs.SendSideKept.setPlen (s.csr.received s.rxSeq (s.rxd 10)) pd _ with }
  | sent pa ptt call | sendFailed pa ptt call => exact absurd rfl (hs pa ptt call)
  | initialized => exact absurd rfl hi
  | cleared => exact absurd rfl hc
  | _ => exact ⟨rfl, rfl, rfl, rfl⟩

/-- The receiving direction's registers belong to `PKT_RECV` and the two clearing commands (R50). -/
theorem Completes.receiveSideKept {i : Instr} {s t : State} (h : Completes i s t)
    (hr : ∀ pd, i ≠ .pktRecv pd) (hi : i ≠ .pktInit) (hc : i ≠ .statsClr) : s.csr.ReceiveSideKept t.csr := by
  cases h with
  | encoded pd fa s c b => exact { Csrs.ReceiveSideKept.setPlen s.csr pd _ with }
  | received pd => exact absurd rfl (hr pd)
  | initialized => exact absurd rfl hi
  | cleared => exact absurd rfl hc
  | _ => exact ⟨rfl, rfl, rfl, rfl, rfl, rfl, rfl, rfl⟩

/-- A register write reaches neither direction's transport registers nor the codec state (R50, R58). -/
theorem csrWrite_kept {s t : State} {v : Word} {r : CsrName} (h : csrWrite s v r = some t) :
    s.csr.SendSideKept t.csr ∧ s.csr.ReceiveSideKept t.csr ∧ t.codecState = s.codecState := by
  obtain ⟨-, rfl⟩ | ⟨-, rfl⟩ | ⟨-, rfl⟩ | ⟨-, rfl⟩ | ⟨-, rfl⟩ | ⟨-, rfl⟩ | ⟨-, rfl⟩ | ⟨-, rfl⟩ | ⟨-, rfl⟩ :=
    csrWrite_cases h <;>
  exact ⟨⟨rfl, rfl, rfl, rfl⟩, ⟨rfl, rfl, rfl, rfl, rfl, rfl, rfl, rfl⟩, rfl⟩

/-- No admitted host write reaches the transport registers or the codec state (R50, R58). -/
theorem memWrite_kept {s t : State} {a : BitVec 16} {z : BitVec 2} {v : Word} (h : memWrite s a z v = some t) :
    s.csr.SendSideKept t.csr ∧ s.csr.ReceiveSideKept t.csr ∧ t.codecState = s.codecState := by
  obtain ⟨-, ⟨r, hr⟩ | ⟨k, i, x, rfl⟩ | ⟨k, i, x, y, rfl⟩ | ⟨n, -, rfl⟩⟩ := memWrite_cases h
  · exact csrWrite_kept hr
  all_goals exact ⟨⟨rfl, rfl, rfl, rfl⟩, ⟨rfl, rfl, rfl, rfl, rfl, rfl, rfl, rfl⟩, rfl⟩

/-! ### The codec state -/

/-- Only `ENC` and `DEC` change the codec state (R58). -/
theorem Completes.codecState {i : Instr} {s t : State} (h : Completes i s t) :
    t.codecState = s.codecState ∨ (∃ pd fa, i = .enc pd fa) ∨ ∃ fd pa loss, i = .dec fd pa loss := by
  cases h with
  | encoded pd fa | encodeFailed pd fa => exact .inr (.inl ⟨pd, fa, rfl⟩)
  | decoded fd pa loss | decodeFailed fd pa loss => exact .inr (.inr ⟨fd, pa, loss, rfl⟩)
  | _ => exact .inl rfl

/-- The host changes the codec state by an assertion of `rst` only (R58, R260). -/
theorem hostTurn_codecState (s : State) :
    (hostTurn s).codecState = s.codecState ∨ ∃ r, s.host.program = .rst :: r := by
  obtain ⟨-, e⟩ | ⟨a, z, r, -, e⟩ | ⟨a, z, v, r, -, -, e⟩ | ⟨a, z, v, r, t, -, hw, e⟩ | ⟨r, -, -, e⟩ | ⟨r, -, -, e⟩ |
    ⟨r, hp, e⟩ := hostTurn_cases s <;> rw [e]
  case inr.inr.inr.inr.inr.inr => exact .inr ⟨r, hp⟩
  case inr.inr.inr.inl =>
    obtain ⟨-, -, hk⟩ := memWrite_kept hw
    exact .inl hk
  all_goals exact .inl rfl

/-! ### The draws -/

/-- A command draws for the ports of a `PKT_SEND` within the size limit and for the tail of an `ENC`, and for nothing else
(R135, R195). -/
theorem Completes.env {i : Instr} {s t : State} (h : Completes i s t) :
    t.env = s.env ∨
    (∃ pa ptt call, i = .pktSend pa ptt call ∧ s.plen pa ≤ s.params.maxPayload ∧ t.env = s.portsSampled.env) ∨
    (∃ pd fa, i = .enc pd fa ∧ t.env = s.drawTaken.env) := by
  cases h with
  | encoded pd fa => exact .inr (.inr ⟨pd, fa, rfl, rfl⟩)
  | sent pa ptt call s hl | sendFailed pa ptt call s hl => exact .inr (.inl ⟨pa, ptt, call, rfl, hl, rfl⟩)
  | _ => exact .inl rfl

/-- The host draws for the delay at an admitted write of `CMD`, and for nothing else (R26). -/
theorem memWrite_draws {s t : State} {a : BitVec 16} {z : BitVec 2} {v : Word} (h : memWrite s a z v = some t) :
    t.env = s.env ∨ (a = 0 ∧ z = 2 ∧ t.env = (s.startCommand v).env) := by
  by_cases hc : a = 0 ∧ z = 2
  · obtain ⟨rfl, rfl⟩ := hc
    obtain ⟨hb, -⟩ := memWrite_cases h
    rw [memWrite_csr hb (r := .cmd) rfl] at h
    exact .inr ⟨rfl, rfl, Option.some.inj h ▸ rfl⟩
  · exact .inl (memWrite_env hc h)

/-- The host's turn never samples the ports; it draws a delay when it writes `CMD` of an idle block (R26, R195). -/
theorem hostTurn_draws (s : State) :
    (hostTurn s).env.ports = s.env.ports ∧
    ((hostTurn s).env.drawn = s.env.drawn ∨
      (s.csr.busy = false ∧ (∃ w r, s.host.program = .write 0 2 w :: r) ∧ (hostTurn s).env.drawn = s.env.drawn + 1)) := by
  obtain ⟨-, e⟩ | ⟨a, z, r, -, e⟩ | ⟨a, z, v, r, -, -, e⟩ | ⟨a, z, v, r, t, hp, hw, e⟩ | ⟨r, -, -, e⟩ | ⟨r, -, -, e⟩ |
    ⟨r, -, e⟩ := hostTurn_cases s <;> rw [e]
  case inr.inr.inr.inl =>
    obtain ⟨hb, -⟩ := memWrite_cases hw
    obtain he | ⟨rfl, rfl, he⟩ := memWrite_draws hw <;> rw [emit_env, he]
    · exact ⟨rfl, .inl rfl⟩
    · exact ⟨rfl, .inr ⟨hb, ⟨v, r, hp⟩, rfl⟩⟩
  all_goals exact ⟨rfl, .inl rfl⟩

/-! ### The host's turn -/

/-- While no completion is due the step is the host's (R84, R270). -/
theorem step_host {s : State} (h : s.blockMoves = false) : step s = .next (hostTurn s) := by
  rw [step, h]; rfl

/-- `WAIT` while a command is pending: `STATUS` is read and the host stays at its place (R119). -/
theorem hostTurn_wait_busy {s : State} {r : List BusOp} (hp : s.host.program = .wait :: r) (hb : s.csr.busy = true) :
    hostTurn s = { s with delay := s.delay - 1 }.emit (.readAnswer false (statusWord s.csr)) := by
  rw [hostTurn, hp]
  simp only [hb, if_true, memRead_status]
  rfl

/-- `WAIT` while the block is idle: `STATUS` is read and the host goes on (R119). -/
theorem hostTurn_wait_idle {s : State} {r : List BusOp} (hp : s.host.program = .wait :: r) (hb : s.csr.busy = false) :
    hostTurn s = (s.consume r).emit (.readAnswer false (statusWord s.csr)) := by
  rw [hostTurn, hp]
  simp only [hb, memRead_status]
  rfl

end Sys2Proof.Machine
end

section
/-! SUPPORT. `PKT_SEND` and `PKT_RECV`, each as what it reads of the state and what it then writes: neither writes what the other
reads, and what they write can be written in either order (R50, R53 to R55). -/

namespace Sys2Proof.Machine

/-! ### Reads and writes of the two commands -/

/-- What `PKT_SEND` reads: nothing of use for a request above the size limit, otherwise the datagram and the link (R195). -/
def State.sendReads (s : State) (pa : PReg) (ptt call : Bool) : Option (List Byte × Bool) :=
  if s.params.maxPayload < s.plen pa then none
  else some (serializePacket s.csr.txSeq s.inputTimeUs ptt call (s.payload pa), s.inputLinkUp)

/-- `PKT_SEND` up to the outcome of the link: the number is used, the inputs are sampled, the datagram is in `TXD` (R195). -/
def State.datagramPlaced (s : State) (pkt : List Byte) : State :=
  { s.portsSampled.writeBytes txdBase pkt with
    csr := { s.csr with txSeq := s.csr.txSeq + 1, txdLen := BitVec.ofNat 10 pkt.length } }

/-- A datagram was built and the link is down (R195, R196). -/
def State.sendFailureCounted (s : State) : State :=
  { s with csr := { s.csr with txFailCnt := s.csr.txFailCnt + 1 } }

/-- A datagram was built and the link is up (R195). -/
def State.sendCounted (s : State) (pkt : List Byte) : State :=
  { s with csr := { s.csr with
      pktsSent := s.csr.pktsSent + 1, bytesSent := s.csr.bytesSent + BitVec.ofNat 32 pkt.length } }

/-- What `PKT_SEND` writes once it has read its inputs (R195, R196). -/
def State.sendWrites (s : State) : Option (List Byte × Bool) → State
  | none => s.raise .tooBig
  | some (pkt, true) => (((s.datagramPlaced pkt).sendCounted pkt).emit (.txStrobe pkt)).done
  | some (pkt, false) => (s.datagramPlaced pkt).sendFailureCounted.raise .link

/-- What `PKT_RECV` reads: the error it finds, or the number, the flags and the payload of the datagram (R203). -/
def State.receiveReads (s : State) : Except CompletionCode (Word × Byte × List Byte) :=
  if s.csr.rxdLen.toNat < Config.hdrLen then .error .short
  else if s.rxSize > s.params.maxPayload ∨ Config.hdrLen + s.rxSize > s.csr.rxdLen.toNat then .error .badSize
  else .ok (s.rxSeq, s.rxd 10, s.bytesAt (rxdBase + Config.hdrLen) s.rxSize)

/-- What `PKT_RECV` writes once it has read the datagram (R203). -/
def State.receiveWrites (s : State) (pd : PReg) : Except CompletionCode (Word × Byte × List Byte) → State
  | .error c => s.raise c
  | .ok (seq, flags, data) =>
    (((({ s with csr := s.csr.received seq flags }).writeBytes (payloadBase pd) data).setPlen pd data.length).emit
      .rxStrobe).done

/-- The model's own steps of `PKT_SEND` in terms of the writes (R195). -/
theorem packetBuilt_eq (s : State) (pa : PReg) (ptt call : Bool) :
    packetBuilt s pa ptt call = s.datagramPlaced (serializePacket s.csr.txSeq s.inputTimeUs ptt call (s.payload pa)) := by
  simp only [packetBuilt, State.datagramPlaced, serializePacket_length, payload_length]

theorem packetSent_eq (s : State) (pa : PReg) (ptt call : Bool) :
    packetSent s pa ptt call =
      s.sendWrites (some (serializePacket s.csr.txSeq s.inputTimeUs ptt call (s.payload pa), true)) := by
  simp only [packetSent, packetBuilt_eq, State.sendWrites, State.sendCounted, serializePacket_length, payload_length]

/-- `PKT_SEND` is its reads followed by its writes. -/
theorem exec_pktSend_eq (s : State) (pa : PReg) (ptt call : Bool) :
    exec (.pktSend pa ptt call) s = .next (s.sendWrites (s.sendReads pa ptt call)) := by
  obtain ⟨h, e⟩ | ⟨h, hl, e⟩ | ⟨h, hl, e⟩ := execPktSend_cases s pa ptt call <;> refine e.trans (congrArg _ ?_)
  · rw [State.sendReads, if_pos h]; rfl
  · rw [State.sendReads, if_neg (by omega), hl]; exact packetSent_eq s pa ptt call
  · rw [State.sendReads, if_neg (by omega), hl, packetFailed, packetBuilt_eq]; rfl

/-- `PKT_RECV` is its reads followed by its writes. -/
theorem exec_pktRecv_eq (s : State) (pd : PReg) :
    exec (.pktRecv pd) s = .next (s.receiveWrites pd s.receiveReads) := by
  change execPktRecv pd s = _
  rw [execPktRecv, State.receiveReads]
  split
  · rfl
  · split
    · rfl
    · simp only [State.receiveWrites, bytesAt_length]
      rfl

/-! ### What is written fits its buffer -/

/-- The datagram to be written, if there is one, fits `TXD`. -/
def FitsTxd (q : Option (List Byte × Bool)) : Prop := ∀ p ∈ q, p.1.length ≤ Config.bufCap

/-- The payload to be written, if there is one, fits a payload buffer. -/
def FitsPayload : Except CompletionCode (Word × Byte × List Byte) → Prop
  | .error _ => True
  | .ok (_, _, data) => data.length ≤ Config.bufCap

theorem State.Inv.sendReads_fits {s : State} (h : s.Inv) (pa : PReg) (ptt call : Bool) :
    FitsTxd (s.sendReads pa ptt call) := by
  have hcap := h.maxPayload_le
  unfold State.sendReads
  split
  · exact fun _ hp => nomatch hp
  · intro p hp
    obtain rfl := Option.some.inj hp
    rw [serializePacket_length, payload_length]
    omega

theorem State.Inv.receiveReads_fits {s : State} (h : s.Inv) : FitsPayload s.receiveReads := by
  have hcap := h.maxPayload_le
  unfold State.receiveReads
  split
  · trivial
  · split
    · trivial
    · simp only [FitsPayload, bytesAt_length]
      omega

/-! ### Neither command writes what the other reads -/

/-- What `PKT_SEND` reads depends on the configuration, one length, the sequence number, the environment and one payload. -/
theorem sendReads_congr {s t : State} {pa : PReg} (hp : t.params = s.params) (hl : t.plen pa = s.plen pa)
    (hq : t.csr.txSeq = s.csr.txSeq) (he : t.env = s.env) (hd : t.payload pa = s.payload pa) (ptt call : Bool) :
    t.sendReads pa ptt call = s.sendReads pa ptt call := by
  simp only [State.sendReads, State.inputTimeUs, State.inputLinkUp, hp, hl, hq, he, hd]

/-- What `PKT_RECV` reads depends on the configuration, the length of the datagram and the bytes of `RXD`. -/
theorem receiveReads_congr {s t : State} (hp : t.params = s.params) (hl : t.csr.rxdLen = s.csr.rxdLen)
    (hb : ∀ x, rxdBase ≤ x → t.byteAt x = s.byteAt x) : t.receiveReads = s.receiveReads := by
  have hx : ∀ j, t.rxd j = s.rxd j := fun j => hb _ (Nat.le_add_right ..)
  have hd : ∀ n, t.bytesAt (rxdBase + Config.hdrLen) n = s.bytesAt (rxdBase + Config.hdrLen) n :=
    fun n => bytesAt_congr fun x h _ => hb x (by omega)
  have hsize : t.rxSize = s.rxSize := by rw [State.rxSize, hx, hx]; rfl
  have hseq : t.rxSeq = s.rxSeq := by rw [State.rxSeq, hx, hx, hx, hx]; rfl
  rw [State.receiveReads, State.receiveReads, hp, hl, hsize, hseq, hx, hd]

/-- The payload buffers lie below `TXD` (R72). -/
theorem payloadBase_below_txdBase (k : PReg) : payloadBase k + Config.bufCap ≤ txdBase := by cases k <;> decide

/-- `TXD` lies below `RXD` (R72). -/
theorem txdBase_below_rxdBase : txdBase + Config.bufCap ≤ rxdBase := by decide

/-- The two payload buffers do not overlap (R72). -/
theorem payloadBase_apart {j k : PReg} (h : j ≠ k) :
    payloadBase j + Config.bufCap ≤ payloadBase k ∨ payloadBase k + Config.bufCap ≤ payloadBase j :=
  match j, k, h with
  | .p0, .p1, _ => .inl (by decide)
  | .p1, .p0, _ => .inr (by decide)
  | .p0, .p0, h | .p1, .p1, h => absurd rfl h

/-- `PKT_RECV` into one payload buffer writes nothing that a `PKT_SEND` of the other one reads. -/
theorem sendReads_receiveWrites {s : State} (h : s.Inv) {pa pd : PReg} (hne : pa ≠ pd)
    {r : Except CompletionCode (Word × Byte × List Byte)} (hr : FitsPayload r) (ptt call : Bool) :
    (s.receiveWrites pd r).sendReads pa ptt call = s.sendReads pa ptt call := by
  match r with
  | .error c => rfl
  | .ok (seq, flags, data) =>
    let t := s.receiveWrites pd (.ok (seq, flags, data))
    have hlen : t.plen pa = s.plen pa :=
      congrArg BitVec.toNat ((plen_setPlen (s.csr.received seq flags) pd _ pa).trans (if_neg hne))
    have hseq : t.csr.txSeq = s.csr.txSeq := setPlen_csr_txSeq (s.csr.received seq flags) pd _
    refine sendReads_congr (t := t) (s := s) rfl hlen hseq rfl ?_ ptt call
    rw [State.payload, State.payload, hlen]
    refine bytesAt_congr fun x h1 h2 => ?_
    have hcap := h.plen pa
    have hdata : data.length ≤ Config.bufCap := hr
    have hapart := payloadBase_apart hne
    exact byteAt_writeBytes_other s (a := payloadBase pd) (bs := data) (by omega)

/-- `PKT_SEND` writes nothing that `PKT_RECV` reads: `TXD` lies below `RXD` (R72). -/
theorem receiveReads_sendWrites (s : State) {q : Option (List Byte × Bool)} (hq : FitsTxd q) :
    (s.sendWrites q).receiveReads = s.receiveReads := by
  have hbelow := txdBase_below_rxdBase
  match q with
  | none => rfl
  | some (pkt, up) =>
    have hlen : pkt.length ≤ Config.bufCap := hq _ rfl
    have hb : ∀ x, rxdBase ≤ x → (s.writeBytes txdBase pkt).byteAt x = s.byteAt x :=
      fun x hx => byteAt_writeBytes_other s (by omega)
    cases up <;> exact receiveReads_congr rfl rfl hb

/-! ### The writes commute -/

/-- Two states that only the code of the last completion and the order of what was observed can tell apart. -/
structure AgreeButCode (b d : State) : Prop where
  mem        : b.mem = d.mem
  frames     : b.frames = d.frames
  codecState : b.codecState = d.codecState
  csr        : { b.csr with err := .ok } = { d.csr with err := .ok }
  env        : b.env = d.env
  log        : b.log.Perm d.log

/-- The sticky flags of two errors do not depend on which came first (R28). -/
theorem raise_raise_csr (s : State) (c e : CompletionCode) :
    { ((s.raise c).raise e).csr with err := .ok } = { ((s.raise e).raise c).csr with err := .ok } := by
  simp only [raise_csr, BitVec.or_assoc, BitVec.or_comm (errFlagOf c)]

/-- Whatever fits its buffer can be written in either order: the buffers do not overlap, the registers of the two directions
are different ones, and sticky flags add up. -/
theorem send_receive_writes_comm {s : State} (h : s.mem.wf) (pd : PReg) (q : Option (List Byte × Bool))
    {r : Except CompletionCode (Word × Byte × List Byte)} (hr : FitsPayload r) :
    AgreeButCode ((s.sendWrites q).receiveWrites pd r) ((s.receiveWrites pd r).sendWrites q) := by
  match q, r with
  | none, .error c => exact ⟨rfl, rfl, rfl, raise_raise_csr s .tooBig c, rfl, .refl _⟩
  | some (pkt, true), .error c => exact ⟨rfl, rfl, rfl, rfl, rfl, .refl _⟩
  | some (pkt, false), .error c =>
    exact ⟨rfl, rfl, rfl, raise_raise_csr (s.datagramPlaced pkt).sendFailureCounted .link c, rfl, .refl _⟩
  | none, .ok (seq, flags, data) => exact ⟨rfl, rfl, rfl, by cases pd <;> rfl, rfl, .refl _⟩
  | some (pkt, up), .ok (seq, flags, data) =>
    have hmem : (s.mem.write txdBase pkt).write (payloadBase pd) data =
        (s.mem.write (payloadBase pd) data).write txdBase pkt := by
      have hdata : data.length ≤ Config.bufCap := hr
      have hbelow := payloadBase_below_txdBase pd
      exact write_comm h _ _ _ _ (.inr (by omega))
    cases up
    · exact ⟨hmem, rfl, rfl, by cases pd <;> rfl, rfl, .refl _⟩
    · exact ⟨hmem, rfl, rfl, by cases pd <;> rfl, rfl, .swap ..⟩

end Sys2Proof.Machine
end

section
/-! The obligations of 10_state.md. -/

namespace Sys2Proof.Machine

/-- Settles O33: each command reads the same after the other one, and what the two then write commutes. -/
theorem sendAndReceiveCommute : Obligations.SendAndReceiveCommute := by
  intro pa pd ptt call s a b c d h hne ha hb hc hd
  have hq := h.sendReads_fits pa ptt call
  have hr := h.receiveReads_fits
  rw [exec_pktSend_eq] at ha hd
  rw [exec_pktRecv_eq] at hb hc
  obtain rfl := Host.Outcome.next.inj ha
  obtain rfl := Host.Outcome.next.inj hc
  rw [receiveReads_sendWrites s hq] at hb
  rw [sendReads_receiveWrites h hne hr] at hd
  obtain rfl := Host.Outcome.next.inj hb
  obtain rfl := Host.Outcome.next.inj hd
  obtain ⟨hmem, hframes, hcodec, hcsr, henv, hlog⟩ := send_receive_writes_comm h.memWf pd (s.sendReads pa ptt call) hr
  exact ⟨hmem, hframes, hcodec, hcsr, henv, hlog⟩

/-- Settles O37: every result of a command but a new destination frame keeps all four frame registers. -/
theorem onlyTheDestinationFrameChanges : Obligations.OnlyTheDestinationFrameChanges :=
  fun _ _ _ _ he hk => (exec_completes he).frames_get hk

/-- Settles O38: each direction's registers are written by its own command and the two clearing ones; `STATS_CLR` clears the
counters and keeps the rest. -/
theorem transportStatsOwnership : Obligations.TransportStatsOwnership := by
  refine ⟨fun i s t he => ?_, fun s t a z v hw => ?_⟩
  · by_cases hc : i = .statsClr
    · subst hc
      obtain rfl := Host.Outcome.next.inj he
      exact ⟨fun _ _ => ⟨rfl, fun h => absurd rfl h⟩, fun _ _ => ⟨rfl, rfl, rfl, rfl, fun h => absurd rfl h⟩⟩
    · have hcompl := exec_completes he
      refine ⟨fun hs hi => ?_, fun hr hi => ?_⟩
      · obtain ⟨h1, h2, h3, h4⟩ := hcompl.sendSideKept hs hi hc
        exact ⟨h1, fun _ => ⟨h2, h3, h4⟩⟩
      · obtain ⟨h1, h2, h3, h4, h5, h6, h7, h8⟩ := hcompl.receiveSideKept hr hi hc
        exact ⟨h1, h2, h3, h4, fun _ => ⟨h5, h6, h7, h8⟩⟩
  · obtain ⟨⟨h1, h2, h3, h4⟩, ⟨h5, h6, h7, h8, h9, h10, h11, h12⟩, -⟩ := memWrite_kept hw
    exact ⟨h1, h2, h3, h4, h5, h6, h7, h8, h9, h10, h11, h12⟩

/-- Settles O39: by who moves; the block changes the two by its command's result, the host by `rst` and by a write of `CMD`. -/
theorem hiddenStateAndPortsOwnership : Obligations.HiddenStateAndPortsOwnership := by
  intro s t h
  obtain ⟨hm, i, hi, he⟩ | ⟨-, -, rfl⟩ | ⟨hm, rfl⟩ := step_cases h
  · have hcompl := exec_completes he
    constructor
    · obtain hk | ⟨pd, fa, rfl⟩ | ⟨fd, pa, loss, rfl⟩ := hcompl.codecState
      · exact .inl hk
      · exact .inr (.inl ⟨hm, .inl ⟨pd, fa, hi⟩⟩)
      · exact .inr (.inl ⟨hm, .inr ⟨fd, pa, loss, hi⟩⟩)
    · obtain hk | ⟨pa, ptt, call, rfl, hl, hk⟩ | ⟨pd, fa, rfl, hk⟩ := hcompl.env <;> rw [hk]
      · exact .inl ⟨rfl, rfl⟩
      · exact .inr (.inl ⟨hm, ⟨pa, ptt, call, hi, hl⟩, rfl, rfl⟩)
      · exact .inr (.inr (.inl ⟨hm, ⟨pd, fa, hi⟩, rfl, rfl⟩))
  · exact ⟨.inl rfl, .inl ⟨rfl, rfl⟩⟩
  · constructor
    · obtain hk | hr := hostTurn_codecState s
      · exact .inl hk
      · exact .inr (.inr ⟨hm, hr⟩)
    · obtain ⟨hports, hd | ⟨hb, hp, hd⟩⟩ := hostTurn_draws s
      · exact .inl ⟨hports, hd⟩
      · exact .inr (.inr (.inr ⟨hm, hb, hp, hports, hd⟩))

/-- Settles O50: the register map gives the register, and each register word is the sum of its fields. -/
theorem registerReads : Obligations.RegisterReads := by
  intro s c code
  refine ⟨⟨_, memRead_status s, ?_⟩, fun hb => ?_⟩
  · rw [statusWord_toNat]
    simp only [c, code]
    cases s.csr.err <;> rfl
  · simp only [List.forall_mem_cons]
    exact ⟨memRead_toNat hb rfl rfl (errFlagsWord_toNat _), memRead_toNat hb rfl rfl (cfgWord_toNat _),
      memRead_toNat hb rfl rfl (zero_append_toNat _), memRead_toNat hb rfl rfl (mixGain_toNat _ _),
      memRead_toNat hb rfl rfl (zero_append_toNat _), memRead_toNat hb rfl rfl (zero_append_toNat _),
      memRead_toNat hb rfl rfl rfl, memRead_toNat hb rfl rfl rfl, memRead_toNat hb rfl rfl (rxInfoWord_toNat _),
      memRead_toNat hb rfl rfl rfl, memRead_toNat hb rfl rfl rfl, memRead_toNat hb rfl rfl rfl,
      memRead_toNat hb rfl rfl rfl, memRead_toNat hb rfl rfl rfl, memRead_toNat hb rfl rfl (zero_append_toNat _),
      memRead_toNat hb rfl rfl rfl, memRead_toNat hb rfl rfl rfl, memRead_toNat hb rfl rfl rfl,
      memRead_toNat hb rfl rfl (zero_append_toNat _), memRead_toNat hb rfl rfl (zero_append_toNat _),
      memRead_toNat hb rfl rfl (zero_append_toNat _), memRead_toNat hb rfl rfl (zero_append_toNat _),
      fun _ h => nomatch h⟩

/-- Settles O51: a write of an idle block's register is `csrWrite`, and reading back is `csrRead` of the register it changed. -/
theorem registerWriteReadBack : Obligations.RegisterWriteReadBack := by
  intro s v hb
  refine ⟨⟨_, memWrite_csr hb (r := .errFlags) rfl, rfl, _, memRead_csr hb (r := .errFlags) rfl,
      Eq.trans (memRead_csr hb rfl) (congrArg some (errFlagsWord_cleared s.csr v))⟩,
    ⟨_, memWrite_csr hb (r := .cfg) rfl, rfl, Eq.trans (memRead_csr hb rfl) (congrArg some (cfgWord_written v))⟩,
    ⟨_, memWrite_csr hb (r := .limKnee) rfl, rfl,
      Eq.trans (memRead_csr hb rfl) (congrArg some (zero_append_setWidth 17 15 v))⟩,
    ⟨_, memWrite_csr hb (r := .mixGain) rfl, rfl, Eq.trans (memRead_csr hb rfl) (congrArg some (mixGain_written v))⟩,
    ⟨_, memWrite_csr hb (r := .stLevel) rfl, rfl,
      Eq.trans (memRead_csr hb rfl) (congrArg some (zero_append_setWidth 16 16 v))⟩,
    ⟨_, memWrite_csr hb (r := .plen0) rfl, rfl, memRead_lengthWritten hb hb (r := .plen0) rfl rfl rfl⟩,
    ⟨_, memWrite_csr hb (r := .plen1) rfl, rfl, memRead_lengthWritten hb hb (r := .plen1) rfl rfl rfl⟩,
    ⟨_, memWrite_csr hb (r := .rxdLen) rfl, rfl, memRead_lengthWritten hb hb (r := .rxdLen) rfl rfl rfl⟩,
    fun a ha => ?_⟩
  fin_cases ha <;> exact memWrite_readOnly hb rfl rfl

/-- Settles O43: the answer is `STATUS`, and with no completion due the host takes its turn. -/
theorem waitPollsStatus : Obligations.WaitPollsStatus := by
  intro s r hp
  refine ⟨statusWord s.csr, memRead_status s, statusWord_busy s.csr, fun hb hd => ?_, fun hb => ?_⟩
  · rw [step_host (by simp [State.blockMoves, hp, hd]), hostTurn_wait_busy hp hb]; rfl
  · rw [step_host (by simp [State.blockMoves, hb]), hostTurn_wait_idle hp hb]; rfl

/-- Settles O52: `CMD` is admitted as a write of an idle block only. -/
theorem cmdWriteStartsTheCommand : Obligations.CmdWriteStartsTheCommand := by
  intro s v
  refine ⟨?_, fun hb => memWrite_busy hb 0 2 v, fun hb => ⟨_, memWrite_csr hb (r := .cmd) rfl, rfl, rfl, rfl⟩⟩
  cases hb : s.csr.busy
  · exact memRead_csr hb (r := .cmd) rfl
  · exact memRead_busy hb (by decide)

end Sys2Proof.Machine
end

section
/-! SUPPORT. The host's transactions: what refuses an access, what an admitted access of a frame window or a buffer comes down to,
and the host's turn for a read, an admitted write and a refused write. -/

namespace Sys2Proof.Machine

/-! ### Refused accesses -/

/-- A misaligned access is not admitted (R77). -/
theorem refused_of_misaligned (s : State) {a : BitVec 16} {z : BitVec 2} {n : Nat} (v : Word) (hz : widthOf z = some n)
    (ha : a.toNat % n ≠ 0) : memRead s a z = none ∧ memWrite s a z v = none := by
  simp [memRead, memWrite, hz, ha]

/-- An access that reaches nothing is not admitted (R71, R73, R79). -/
theorem refused_of_nothing {s : State} {a : BitVec 16} {z : BitVec 2} (v : Word)
    (hl : ∀ n, widthOf z = some n → locate s.params a.toNat n = .nothing) :
    memRead s a z = none ∧ memWrite s a z v = none := by
  cases hz : widthOf z with
  | none => simp [memRead, memWrite, hz]
  | some n => simp [memRead, memWrite, hz, hl n hz]

/-- The three holes of the address map (R73). -/
theorem locate_unmapped (p : Config.Params) {a : Nat} (n : Nat)
    (h : (0x0060 ≤ a ∧ a ≤ 0x0FFF) ∨ (0x3000 ≤ a ∧ a ≤ 0x3FFF) ∨ 0x4800 ≤ a) : locate p a n = .nothing := by
  rw [locate, if_neg (by omega), if_neg (by omega), if_neg (by omega)]

/-! ### Admitted accesses by what they reach -/

section Admitted

variable {s : State} {a : BitVec 16} {z : BitVec 2} {n : Nat} {k : FReg} {i : Nat} (hb : s.csr.busy = false)
  (hz : widthOf z = some n) (ha : a.toNat % n = 0)
include hb hz ha

theorem memRead_sample (hl : locate s.params a.toNat n = .sample k i) :
    memRead s a z = some ((s.sample k i).setWidth 32) := by
  simp [memRead, hb, hz, ha, hl]

theorem memWrite_sample (v : Word) (hl : locate s.params a.toNat n = .sample k i) :
    memWrite s a z v = some (s.setSample k i (v.extractLsb' 0 16)) := by
  simp [memWrite, hb, hz, ha, hl]

theorem memRead_samples (hl : locate s.params a.toNat n = .samples k i) :
    memRead s a z = some (s.sample k (i + 1) ++ s.sample k i) := by
  simp [memRead, hb, hz, ha, hl]

theorem memWrite_samples (v : Word) (hl : locate s.params a.toNat n = .samples k i) :
    memWrite s a z v = some ((s.setSample k i (v.extractLsb' 0 16)).setSample k (i + 1) (v.extractLsb' 16 16)) := by
  simp [memWrite, hb, hz, ha, hl]

theorem memRead_bytes {w : Bool} (hl : locate s.params a.toNat n = .bytes w) :
    memRead s a z = some (BitVec.ofNat 32 (leValue (s.bytesAt a.toNat n))) := by
  simp [memRead, hb, hz, ha, hl]

theorem memWrite_bytes (v : Word) (hl : locate s.params a.toNat n = .bytes true) :
    memWrite s a z v = some (s.writeBytes a.toNat (leBytes n v.toNat)) := by
  simp [memWrite, hb, hz, ha, hl]

theorem memWrite_bytes_readOnly (v : Word) (hl : locate s.params a.toNat n = .bytes false) : memWrite s a z v = none := by
  simp [memWrite, hb, hz, ha, hl]

end Admitted

/-! ### Frame windows -/

/-- A place in a frame window is a bus address (R71). -/
theorem frameAddr_toNat (k : FReg) {off : Nat} (h : off < 0x800) :
    (BitVec.ofNat 16 (frameBase k + off)).toNat = frameBase k + off := by
  have hk : frameBase k ≤ 0x2800 := by cases k <;> decide
  rw [BitVec.toNat_ofNat, Nat.mod_eq_of_lt (by omega)]

/-- A frame window begins at a multiple of 4 (R71). -/
theorem frameBase_aligned (k : FReg) : frameBase k % 4 = 0 := by cases k <;> rfl

/-- A 2-byte access at `FBASE(k) + 2i` reaches sample `i` (R71). -/
theorem frame_access_sample {s : State} (hb : s.csr.busy = false) (k : FReg) {i : Nat}
    (hi : i < s.params.frameLen) (hN : s.params.frameLen ≤ 1024) (v : Word) :
    memRead s (BitVec.ofNat 16 (frameBase k + 2 * i)) 1 = some ((s.sample k i).setWidth 32) ∧
    memWrite s (BitVec.ofNat 16 (frameBase k + 2 * i)) 1 v = some (s.setSample k i (v.extractLsb' 0 16)) := by
  have hbase := frameBase_aligned k
  have haddr := frameAddr_toNat k (off := 2 * i) (by omega)
  have ha : (BitVec.ofNat 16 (frameBase k + 2 * i)).toNat % 2 = 0 := by omega
  have hl : locate s.params (BitVec.ofNat 16 (frameBase k + 2 * i)).toNat 2 = .sample k i := by
    rw [haddr, locate_frame s.params k (by omega), if_pos (by omega), if_pos rfl, Nat.mul_div_cancel_left i (by omega)]
  exact ⟨memRead_sample hb rfl ha hl, memWrite_sample hb rfl ha v hl⟩

/-- A 4-byte access at `FBASE(k) + 4j` reaches the samples `2j` and `2j + 1` (R71, R75). -/
theorem frame_access_samples {s : State} (hb : s.csr.busy = false) (k : FReg) {j : Nat}
    (hj : 2 * j + 1 < s.params.frameLen) (hN : s.params.frameLen ≤ 1024) (v : Word) :
    memRead s (BitVec.ofNat 16 (frameBase k + 4 * j)) 2 = some (s.sample k (2 * j + 1) ++ s.sample k (2 * j)) ∧
    memWrite s (BitVec.ofNat 16 (frameBase k + 4 * j)) 2 v =
      some ((s.setSample k (2 * j) (v.extractLsb' 0 16)).setSample k (2 * j + 1) (v.extractLsb' 16 16)) := by
  have hbase := frameBase_aligned k
  have haddr := frameAddr_toNat k (off := 4 * j) (by omega)
  have ha : (BitVec.ofNat 16 (frameBase k + 4 * j)).toNat % 4 = 0 := by omega
  have hl : locate s.params (BitVec.ofNat 16 (frameBase k + 4 * j)).toNat 4 = .samples k (2 * j) := by
    rw [haddr, locate_frame s.params k (by omega), if_pos (by omega), if_neg (by omega), if_pos rfl,
      show 4 * j / 2 = 2 * j by omega]
  exact ⟨memRead_samples hb rfl ha hl, memWrite_samples hb rfl ha v hl⟩

/-- Two neighbouring samples after both were written (R75). -/
theorem sample_setSample_pair (s : State) (k l : FReg) {i : Nat} (x : Nat) (lo hi : Sample)
    (h : i + 1 < (s.frames.get k).length) :
    ((s.setSample k i lo).setSample k (i + 1) hi).sample l x =
      if l = k ∧ x = i then lo else if l = k ∧ x = i + 1 then hi else s.sample l x := by
  rw [sample_setSample _ _ _ _ _ (by rwa [setSample_length]), sample_setSample _ _ _ _ _ (by omega)]
  by_cases hx : l = k ∧ x = i
  · rw [if_neg (by omega), if_pos hx, if_pos hx]
  · rw [if_neg hx, if_neg hx]

/-! ### Buffers -/

/-- Byte `j` of a bus word (R61). -/
theorem leBytes_getElem {n j : Nat} (v : Nat) (h : j < (leBytes n v).length) :
    (leBytes n v)[j] = BitVec.ofNat 8 (v / 256 ^ j) :=
  (List.getElem_eq_iff h).mpr (leBytes_getElem? v (by simpa using h))

/-- The bytes of a bus word are found where they were written (R89). -/
theorem byteAt_writeBytes_leBytes (s : State) (a : Nat) {n j : Nat} (v : Nat) (h : j < n) :
    ((s.writeBytes a (leBytes n v)).byteAt (a + j)).toNat = v / 256 ^ j % 256 := by
  rw [byteAt_writeBytes_at s a (by simpa using h), leBytes_getElem, BitVec.toNat_ofNat]

/-- Reading back the bytes of a bus word gives what of the word fits them (R74, R75). -/
theorem leValue_bytesAt_writeBytes (s : State) (a n v : Nat) :
    leValue ((s.writeBytes a (leBytes n v)).bytesAt a n) = v % 256 ^ n := by
  have hread := bytesAt_eq_of_byteAt (fun _ h => byteAt_writeBytes_at s a (bs := leBytes n v) h)
  rw [leBytes_length] at hread
  rw [hread, leValue_leBytes]

/-- Up to four bytes read over the bus, as a number (R75). -/
theorem busValue_toNat (s : State) (a : Nat) {n : Nat} (hn : n ≤ 4) :
    (BitVec.ofNat 32 (leValue (s.bytesAt a n))).toNat = ∑ j ∈ Finset.range n, (s.byteAt (a + j)).toNat * 256 ^ j := by
  have hlt := leValue_lt (s.bytesAt a n)
  rw [bytesAt_length] at hlt
  have hpow : 256 ^ n ≤ 256 ^ 4 := Nat.pow_le_pow_right (by decide) hn
  rw [BitVec.toNat_ofNat, Nat.mod_eq_of_lt (by omega), leValue_bytesAt]

/-! ### The host's turn -/

/-- With a transaction to perform the host moves unless a pending command is due (R84, R272). -/
theorem blockMoves_eq_false {s : State} {o : BusOp} {r : List BusOp} (h : s.csr.busy = false ∨ s.delay ≠ 0)
    (hp : s.host.program = o :: r) : s.blockMoves = false := by
  obtain hb | hd := h
  · simp [State.blockMoves, hb]
  · simp [State.blockMoves, hp, hd]

/-- A register write is not observed but for its answer (R89). -/
theorem csrWrite_log {s t : State} {v : Word} {r : CsrName} (h : csrWrite s v r = some t) : t.log = s.log := by
  cases r <;> cases h <;> rfl

/-- What an admitted write changes, it changes without an observed event of its own (R89). -/
theorem memWrite_log {s t : State} {a : BitVec 16} {z : BitVec 2} {v : Word} (h : memWrite s a z v = some t) :
    t.log = s.log := by
  obtain ⟨-, ⟨r, hr⟩ | ⟨k, i, x, rfl⟩ | ⟨k, i, x, y, rfl⟩ | ⟨n, -, rfl⟩⟩ := memWrite_cases h
  · exact csrWrite_log hr
  all_goals rfl

/-- The host's turn with a read next (R88). -/
theorem hostTurn_read {s : State} {a : BitVec 16} {z : BitVec 2} {r : List BusOp} (hp : s.host.program = .read a z :: r) :
    hostTurn s = (s.consume r).emit (readEvent (memRead s a z)) := by
  simp only [hostTurn, hp]

/-- The host's turn with a write next (R89). -/
theorem hostTurn_write {s : State} {a : BitVec 16} {z : BitVec 2} {v : Word} {r : List BusOp}
    (hp : s.host.program = .write a z v :: r) : hostTurn s = hostWrite (s.consume r) a z v := by
  simp only [hostTurn, hp]

end Sys2Proof.Machine
end

section
/-! The obligations of 20_memory.md. -/

namespace Sys2Proof.Machine

/-- Settles O46: each of the three ranges is outside every region of the address map. -/
theorem unmappedAccessRefused : Obligations.UnmappedAccessRefused :=
  fun s _ _ v h => refused_of_nothing v fun n _ => locate_unmapped s.params n h

/-- Settles O47: the window's address map gives the sample, and nothing from offset `2N` on. -/
theorem frameWindow : Obligations.FrameWindow := by
  intro s k v hinv hb base
  have hbase : base = frameBase k := by cases k <;> rfl
  rw [hbase]
  have hN := (params_bounds hinv.params).2.1
  refine ⟨fun i hi => ?_, fun off n z hz hoff hpast => refused_of_nothing v fun m hm => ?_⟩
  · obtain ⟨hr, hw⟩ := frame_access_sample hb k hi hN v
    refine ⟨hr, _, hw, rfl, fun j x => ?_⟩
    rw [sample_setSample s k j x _ (by rwa [hinv.frames]), BitVec.setWidth_eq_extractLsb' (by decide)]
  · obtain rfl : n = m := Option.some.inj (hz.symm.trans hm)
    rw [frameAddr_toNat k hoff, locate_frame s.params k hoff, if_neg (by omega)]

/-- Settles O48: the two samples as one number and as two writes; no width but 2 and 4 reaches a sample. -/
theorem frameWordsAndBytes : Obligations.FrameWordsAndBytes := by
  intro s k v hinv hb base
  have hbase : base = frameBase k := by cases k <;> rfl
  rw [hbase]
  have hN := (params_bounds hinv.params).2.1
  refine ⟨fun j hj => ?_, fun off hoff => refused_of_nothing v fun n hn => ?_⟩
  · obtain ⟨hr, hw⟩ := frame_access_samples hb k hj hN v
    exact ⟨⟨_, hr, mixGain_toNat _ _⟩, _, hw, rfl,
      fun l x => sample_setSample_pair s k l x _ _ (by rwa [hinv.frames])⟩
  · obtain rfl : 1 = n := Option.some.inj hn
    rw [frameAddr_toNat k hoff, locate_frame s.params k hoff, if_neg (show ¬ 1 = 2 by decide),
      if_neg (show ¬ 1 = 4 by decide), ite_self]

/-- Settles O49: an aligned access lies inside one buffer, which is written unless it is `TXD`. -/
theorem bufferWindows : Obligations.BufferWindows := by
  intro s a z n v hb hz ha h1 h2
  have hn : n = 1 ∨ n = 2 ∨ n = 4 := by
    obtain ⟨-, h⟩ | ⟨-, h⟩ | ⟨-, h⟩ := widthOf_cases hz <;> omega
  have hl := locate_buffers (p := s.params) hn ha h1 h2
  refine ⟨⟨_, memRead_bytes hb hz ha hl, busValue_toNat s a.toNat (by omega)⟩, fun htxd => ?_, fun htxd => ?_⟩
  · rw [decide_eq_true (by omega)] at hl
    refine ⟨_, memWrite_bytes hb hz ha v hl, rfl, fun j hj => byteAt_writeBytes_leBytes s a.toNat v.toNat hj,
      fun x hx => byteAt_writeBytes_other s (by rwa [leBytes_length]), ?_⟩
    rw [memRead_bytes (s := s.writeBytes a.toNat (leBytes n v.toNat)) hb hz ha hl, leValue_bytesAt_writeBytes]
  · rw [decide_eq_false (by omega)] at hl
    exact memWrite_bytes_readOnly hb hz ha v hl

/-- Settles O41: the host moves, and a refused write is only answered. -/
theorem refusedWriteChangesNothing : Obligations.RefusedWriteChangesNothing := by
  intro s a z v r h hp hw
  rw [step_host (blockMoves_eq_false h hp), hostTurn_write hp, hostWrite, memWrite_consume_none r hw]
  rfl

/-- Settles O42: an admitted write means an idle block, and the write does not look at the host or the delay. -/
theorem admittedWriteTakesEffect : Obligations.AdmittedWriteTakesEffect := by
  intro s t a z v r hp hw
  have hb := (memWrite_cases hw).1
  have hlog : t.log = s.log := memWrite_log hw
  rw [step_host (blockMoves_eq_false (.inl hb) hp), hostTurn_write hp, hostWrite, memWrite_consume r hw, ← hlog]
  rfl

/-- Settles O44: the host moves, and a read is only answered. -/
theorem readsChangeNothing : Obligations.ReadsChangeNothing := by
  intro s a z r h hp
  refine ⟨readEvent (memRead s a z), ?_, fun hn => congrArg readEvent hn, fun v hv => congrArg readEvent hv⟩
  rw [step_host (blockMoves_eq_false h hp), hostTurn_read hp]
  rfl

/-- Settles O45: the width's bytes do not divide the address. -/
theorem misalignedAccessRefused : Obligations.MisalignedAccessRefused :=
  fun s _ v => ⟨refused_of_misaligned s v rfl, refused_of_misaligned s v rfl⟩

end Sys2Proof.Machine
end

section
/-! SUPPORT. The decoder and the encoder. Each row of the opcode map (30_encoding.md R104) is the one that the command's opcode and
used fields (R102) make in format `C` (R101), and no two rows share a word. So a word matches a command's row exactly when it is
the encoding of that command with the word's own operands, and the decoder and the encoder undo each other. -/

namespace Sys2Proof

/-! ### The rows of the opcode map -/

/-- Rows that ask different values of a bit that both test share no word. -/
theorem not_hits_both {r q : OpcodeRow} (h : r.mtch &&& q.mask ≠ q.mtch &&& r.mask) (w : Word) :
    ¬ (r.hits w = true ∧ q.hits w = true) := by
  simp only [OpcodeRow.hits, beq_iff_eq]
  rintro ⟨hr, hq⟩
  apply h
  calc r.mtch &&& q.mask = w &&& r.mask &&& q.mask := by rw [hr]
    _ = w &&& q.mask &&& r.mask := by rw [BitVec.and_assoc, BitVec.and_comm r.mask, ← BitVec.and_assoc]
    _ = q.mtch &&& r.mask := by rw [hq]

/-- Any two rows of R104 ask different values of a bit that both test: they differ in the opcode. -/
theorem opcodeTable_pairwise_differ : opcodeTable.Pairwise (fun r q => r.mtch &&& q.mask ≠ q.mtch &&& r.mask) := by decide

/-- Settles O3: two rows differ in the opcode, which every row tests. -/
theorem opcodeRowsNeverOverlap : Obligations.OpcodeRowsNeverOverlap :=
  opcodeTable_pairwise_differ.imp not_hits_both

/-- A word is a word of at most one row of the table. -/
theorem row_eq_of_hits {w : Word} {r q : OpcodeRow} (hr : r ∈ opcodeTable) (hq : q ∈ opcodeTable) (h : r.hits w = true)
    (h' : q.hits w = true) : r = q :=
  have : Std.Symm fun r q : OpcodeRow => r.hits w = true ∧ q.hits w = true → r = q := ⟨fun _ _ e g => (e g.symm).symm⟩
  have hp : opcodeTable.Pairwise fun r q => r.hits w = true ∧ q.hits w = true → r = q :=
    opcodeRowsNeverOverlap.imp fun e g => absurd g (e w)
  hp.forall_of_forall (fun _ _ _ => rfl) hr hq ⟨h, h'⟩

theorem rowOf_mem (i : Instr) : rowOf i ∈ opcodeTable := by cases i <;> simp [rowOf, opcodeTable]

/-! ### Operands read from a word -/

/-- The command of the same row as `i` with the operands that word `w` holds (R103). -/
def Instr.withFieldsOf (i : Instr) (w : Word) : Instr :=
  match i with
  | .enc ..      => .enc (fieldPX w) (fieldFA w)
  | .dec ..      => .dec (fieldFD w) (fieldPX w) (fieldM0 w)
  | .mix ..      => .mix (fieldFD w) (fieldFA w) (fieldFB w)
  | .limit ..    => .limit (fieldFD w) (fieldFA w)
  | .sidetone .. => .sidetone (fieldFD w) (fieldFA w) (fieldFB w) (fieldM0 w)
  | .rms ..      => .rms (fieldFA w)
  | .pktInit     => .pktInit
  | .pktSend ..  => .pktSend (fieldPX w) (fieldM0 w) (fieldM1 w)
  | .pktRecv ..  => .pktRecv (fieldPX w)
  | .statsClr    => .statsClr

/-- A field of a word, from its bits. -/
theorem extractLsb'_eq {w : Word} {lo n : Nat} {x : BitVec n} (h : ∀ k < n, w.getLsbD (lo + k) = x.getLsbD k) :
    w.extractLsb' lo n = x :=
  BitVec.eq_of_getLsbD_eq fun k hk => by rw [BitVec.getLsbD_extractLsb', h k hk]; simp [hk]

section Fields

variable (opc : BitVec 8) (fd fa fb : BitVec 2) (m0 m1 px : Bool)

@[simp] theorem opcode_commandWord : (commandWord opc fd fa fb m0 m1 px).extractLsb' 0 8 = opc :=
  extractLsb'_eq fun k hk => by rw [commandWord_getLsbD, if_pos (by omega), Nat.zero_add]

@[simp] theorem extractLsb'_fd_commandWord : (commandWord opc fd fa fb m0 m1 px).extractLsb' 8 2 = fd :=
  extractLsb'_eq fun k hk => by
    rw [commandWord_getLsbD, if_neg (by omega), if_pos (by omega), Nat.add_sub_cancel_left]

@[simp] theorem extractLsb'_fa_commandWord : (commandWord opc fd fa fb m0 m1 px).extractLsb' 10 2 = fa :=
  extractLsb'_eq fun k hk => by
    rw [commandWord_getLsbD, if_neg (by omega), if_neg (by omega), if_pos (by omega), Nat.add_sub_cancel_left]

@[simp] theorem extractLsb'_fb_commandWord : (commandWord opc fd fa fb m0 m1 px).extractLsb' 12 2 = fb :=
  extractLsb'_eq fun k hk => by
    rw [commandWord_getLsbD, if_neg (by omega), if_neg (by omega), if_neg (by omega), if_pos (by omega),
      Nat.add_sub_cancel_left]

@[simp] theorem getLsbD_m0_commandWord : (commandWord opc fd fa fb m0 m1 px).getLsbD 16 = m0 :=
  (commandWord_getLsbD ..).trans rfl

@[simp] theorem getLsbD_m1_commandWord : (commandWord opc fd fa fb m0 m1 px).getLsbD 17 = m1 :=
  (commandWord_getLsbD ..).trans rfl

@[simp] theorem getLsbD_px_commandWord : (commandWord opc fd fa fb m0 m1 px).getLsbD 20 = px :=
  (commandWord_getLsbD ..).trans rfl

/-- The reserved bits 15:14, 19:18 and 31:21 of a command word are zero (R101). -/
theorem extractLsb'_reserved_commandWord {lo n : Nat} (h : lo = 14 ∧ n = 2 ∨ lo = 18 ∧ n = 2 ∨ 21 ≤ lo) :
    (commandWord opc fd fa fb m0 m1 px).extractLsb' lo n = 0 :=
  extractLsb'_eq fun k hk => by
    rw [commandWord_getLsbD]
    repeat' rw [if_neg (by omega)]
    exact BitVec.getLsbD_zero.symm

end Fields

/-- A command's word holds the command's operands. -/
theorem withFieldsOf_encode (i : Instr) : i.withFieldsOf (encode i) = i := by
  cases i <;> simp only [Instr.withFieldsOf, encode, fieldFD, fieldFA, fieldFB, fieldM0, fieldM1, fieldPX,
    extractLsb'_fd_commandWord, extractLsb'_fa_commandWord, extractLsb'_fb_commandWord, getLsbD_m0_commandWord,
    getLsbD_m1_commandWord, getLsbD_px_commandWord, fregOfBits_fregBits, pregOfBit_pregBit]

/-! ### The decoder is the opcode map -/

/-- The decoder answers a command of a row that the word matches, with the word's operands (R105). -/
theorem decode_eq_ok {w : Word} {i : Instr} (h : decode w = .ok i) : (rowOf i).hits w = true ∧ i.withFieldsOf w = i := by
  unfold decode at h
  repeat' split at h
  all_goals cases h
  all_goals exact ⟨‹_›, rfl⟩

/-- A word that matches a command's row decodes to that command with the word's operands, as it matches no row before it. -/
theorem decode_of_hits {w : Word} {i : Instr} (h : (rowOf i).hits w = true) : decode w = .ok (i.withFieldsOf w) := by
  have hq : ∀ q ∈ opcodeTable, q.hits w = decide (q = rowOf i) := fun q hq => by
    rw [Bool.eq_iff_iff, decide_eq_true_iff]
    exact ⟨fun h' => row_eq_of_hits hq (rowOf_mem i) h' h, fun e => e ▸ h⟩
  simp only [opcodeTable, List.forall_mem_cons] at hq
  obtain ⟨h0, h1, h2, h3, h4, h5, h6, h7, h8, h9, -⟩ := hq
  simp only [decode, h0, h1, h2, h3, h4, h5, h6, h7, h8, h9]
  cases i <;> rfl

/-! ### Words that hold given fields -/

/-- The word with opcode `opc` that agrees with `w` in the fields `u` and is zero in every other bit (R101, R102). -/
def fieldsWord (opc : BitVec 8) (u : UsedFields) (w : Word) : Word :=
  commandWord opc (if u.fd then w.extractLsb' 8 2 else 0) (if u.fa then w.extractLsb' 10 2 else 0)
    (if u.fb then w.extractLsb' 12 2 else 0) (u.m0 && w.getLsbD 16) (u.m1 && w.getLsbD 17) (u.px && w.getLsbD 20)

@[simp] theorem opcode_fieldsWord (opc : BitVec 8) (u : UsedFields) (w : Word) :
    (fieldsWord opc u w).extractLsb' 0 8 = opc := opcode_commandWord ..

/-- Bit `k` of a two-bit field that is kept or cleared. -/
theorem keptField_getLsbD (b : Bool) (w : Word) {lo k : Nat} (h1 : lo ≤ k) (h2 : k < lo + 2) :
    (if b then w.extractLsb' lo 2 else 0).getLsbD (k - lo) = (b && w.getLsbD k) := by
  cases b
  · rw [if_neg Bool.false_ne_true, Bool.false_and]; exact BitVec.getLsbD_zero
  · rw [if_pos rfl, BitVec.getLsbD_extractLsb', Nat.add_sub_cancel' h1, decide_eq_true (by omega)]

/-- Bit `k` of such a word. -/
theorem fieldsWord_getLsbD (opc : BitVec 8) (u : UsedFields) (w : Word) (k : Nat) :
    (fieldsWord opc u w).getLsbD k =
      if k < 8 then opc.getLsbD k
      else if k < 10 then u.fd && w.getLsbD k
      else if k < 12 then u.fa && w.getLsbD k
      else if k < 14 then u.fb && w.getLsbD k
      else if k = 16 then u.m0 && w.getLsbD 16
      else if k = 17 then u.m1 && w.getLsbD 17
      else if k = 20 then u.px && w.getLsbD 20
      else false := by
  rw [fieldsWord, commandWord_getLsbD]
  exact ite_congr rfl (fun _ => rfl) fun h8 =>
    ite_congr rfl (fun h => keptField_getLsbD _ w (by omega) h) fun h10 =>
    ite_congr rfl (fun h => keptField_getLsbD _ w (by omega) h) fun h12 =>
    ite_congr rfl (fun h => keptField_getLsbD _ w (by omega) h) fun _ => rfl

/-- A test of every bit outside the fields `u` for the opcode `opc` and zeros admits the words that `fieldsWord` makes. -/
theorem and_not_fields_eq_iff (opc : BitVec 8) (u : UsedFields) (w : Word) :
    w &&& ~~~ fieldsWord 0#8 u (BitVec.allOnes 32) = fieldsWord opc u 0#32 ↔ w = fieldsWord opc u w := by
  simp only [BitVec.eq_of_getLsbD_eq_iff, BitVec.getLsbD_and, BitVec.getLsbD_not, fieldsWord_getLsbD,
    BitVec.getLsbD_allOnes, BitVec.getLsbD_zero]
  refine forall₂_congr fun k hk => ?_
  split_ifs <;> simp [*]

/-! ### Well-formed words -/

/-- A field is used or zero: clearing it if it is not used keeps its value. -/
theorem used_or_zero_iff {n : Nat} (b : Bool) (x : BitVec n) : (b || x == 0) = true ↔ x = if b then x else 0 := by
  cases b <;> simp

/-- The same of a one-bit field and its bit. -/
theorem usedBit_or_zero_iff (b : Bool) (w : Word) (k : Nat) :
    (b || w.extractLsb' k 1 == 0) = true ↔ w.getLsbD k = (b && w.getLsbD k) := by
  have hbit : w.extractLsb' k 1 = BitVec.ofBool (w.getLsbD k) := extractLsb'_eq fun j hj => by
    obtain rfl : j = 0 := by omega
    simp
  rw [hbit]
  cases b <;> cases w.getLsbD k <;> decide

/-- R102's well-formed words are those that `fieldsWord` makes of the used fields. -/
theorem wordWellFormed_iff (w : Word) : wordWellFormed w = true ↔
    ∃ u, usedFields (w.extractLsb' 0 8) = some u ∧ w = fieldsWord (w.extractLsb' 0 8) u w := by
  unfold wordWellFormed
  split
  · next h => simp [h]
  · next u h =>
    simp only [Bool.and_eq_true, usedBit_or_zero_iff]
    simp only [used_or_zero_iff, beq_iff_eq, h, Option.some.injEq, exists_eq_left']
    constructor
    · rintro ⟨⟨⟨⟨⟨⟨⟨⟨h14, h18⟩, h21⟩, hfd⟩, hfa⟩, hfb⟩, hm0⟩, hm1⟩, hpx⟩
      rw [fieldsWord, ← hfd, ← hfa, ← hfb, ← hm0, ← hm1, ← hpx]
      exact eq_commandWord h14 h18 h21
    · intro hw
      have zero : ∀ {lo n}, lo = 14 ∧ n = 2 ∨ lo = 18 ∧ n = 2 ∨ 21 ≤ lo → w.extractLsb' lo n = 0 := fun hl =>
        (congrArg (BitVec.extractLsb' _ _) hw).trans (extractLsb'_reserved_commandWord _ _ _ _ _ _ _ hl)
      have field := fun lo n => congrArg (BitVec.extractLsb' lo n) hw
      have bit := fun k => congrArg (fun x => BitVec.getLsbD x k) hw
      exact ⟨⟨⟨⟨⟨⟨⟨⟨zero (by decide), zero (by decide)⟩, zero (by decide)⟩,
        (field 8 2).trans (extractLsb'_fd_commandWord ..)⟩, (field 10 2).trans (extractLsb'_fa_commandWord ..)⟩,
        (field 12 2).trans (extractLsb'_fb_commandWord ..)⟩, (bit 16).trans (getLsbD_m0_commandWord ..)⟩,
        (bit 17).trans (getLsbD_m1_commandWord ..)⟩, (bit 20).trans (getLsbD_px_commandWord ..)⟩

/-! ### The rows are made from the used fields -/

/-- The opcode that a row asks for (R104). -/
def OpcodeRow.opcode (r : OpcodeRow) : BitVec 8 := r.mtch.extractLsb' 0 8

/-- R102's entry for the opcode of a row of R104 makes the row: the match is the opcode alone, the mask tests every bit that is no
used field. -/
theorem opcodeTable_usedFields : ∀ r ∈ opcodeTable, ∃ u ∈ usedFields r.opcode,
    r.mtch = fieldsWord r.opcode u 0#32 ∧ r.mask = ~~~ fieldsWord 0#8 u (BitVec.allOnes 32) := by decide

/-- A word matches a row exactly when it has the row's opcode and is zero outside the used fields. -/
theorem hits_iff_fieldsWord {r : OpcodeRow} (hr : r ∈ opcodeTable) {u : UsedFields} (hu : usedFields r.opcode = some u)
    (w : Word) : r.hits w = true ↔ w = fieldsWord r.opcode u w := by
  obtain ⟨v, hv, hmtch, hmask⟩ := opcodeTable_usedFields r hr
  obtain rfl : v = u := Option.some.inj (hv.symm.trans hu)
  rw [OpcodeRow.hits, beq_iff_eq, hmask, hmtch, and_not_fields_eq_iff]

/-- The encoder fills the used fields of the command's opcode (R102, R103). -/
theorem encode_withFieldsOf (i : Instr) {u : UsedFields} (hu : usedFields (rowOf i).opcode = some u) (w : Word) :
    encode (i.withFieldsOf w) = fieldsWord (rowOf i).opcode u w := by
  cases i <;> cases hu <;>
    simp only [encode, Instr.withFieldsOf, fieldFD, fieldFA, fieldFB, fieldM0, fieldM1, fieldPX, fregBits_fregOfBits,
      pregBit_pregOfBit] <;> rfl

/-- A word matches a command's row exactly when it is the command's word with its own operands. -/
theorem hits_rowOf_iff_encode (i : Instr) (w : Word) : (rowOf i).hits w = true ↔ w = encode (i.withFieldsOf w) := by
  obtain ⟨u, hu, -⟩ := opcodeTable_usedFields _ (rowOf_mem i)
  rw [hits_iff_fieldsWord (rowOf_mem i) hu, encode_withFieldsOf i hu]

/-- Every opcode of R102's table is the opcode of some command. -/
theorem exists_rowOf_opcode {o : BitVec 8} {u : UsedFields} (h : usedFields o = some u) : ∃ i, (rowOf i).opcode = o := by
  have of_toNat : ∀ i, o.toNat = (rowOf i).opcode.toNat → ∃ i, (rowOf i).opcode = o := fun i e =>
    ⟨i, (BitVec.eq_of_toNat_eq e).symm⟩
  unfold usedFields at h
  split at h
  · exact of_toNat (.enc .p0 .f0) ‹_›
  · exact of_toNat (.dec .f0 .p0 false) ‹_›
  · exact of_toNat (.mix .f0 .f0 .f0) ‹_›
  · exact of_toNat (.limit .f0 .f0) ‹_›
  · exact of_toNat (.sidetone .f0 .f0 .f0 false) ‹_›
  · exact of_toNat (.rms .f0) ‹_›
  · exact of_toNat .pktInit ‹_›
  · exact of_toNat (.pktSend .p0 false false) ‹_›
  · exact of_toNat (.pktRecv .p0) ‹_›
  · exact of_toNat .statsClr ‹_›
  · cases h

/-! ### Decoder and encoder -/

/-- The decoder reads a command in its word. -/
theorem decode_encode (i : Instr) : decode (encode i) = .ok i := by
  rw [decode_of_hits ((hits_rowOf_iff_encode i _).mpr (by rw [withFieldsOf_encode])), withFieldsOf_encode]

/-- Settles O2: the word matches the row of what it decodes to, so it is the word of that command with the word's operands. -/
theorem decodeAndEncodeAgree : Obligations.DecodeAndEncodeAgree := by
  intro w i
  constructor
  · intro h
    obtain ⟨hrow, hi⟩ := decode_eq_ok h
    rw [← hi]
    exact (hits_rowOf_iff_encode i w).mp hrow
  · rintro rfl
    exact decode_encode i

/-- Settles O4: the used fields of R102 make the rows of R104, so a word is well formed when it matches the row of its opcode. -/
theorem commandWordsAreTheWellFormedOnes : Obligations.CommandWordsAreTheWellFormedOnes := by
  intro w
  rw [wordWellFormed_iff]
  constructor
  · rintro ⟨i, h⟩
    obtain ⟨u, hu, -⟩ := opcodeTable_usedFields _ (rowOf_mem i)
    have hw := (hits_iff_fieldsWord (rowOf_mem i) hu w).mp (decode_eq_ok h).1
    have ho : w.extractLsb' 0 8 = (rowOf i).opcode := by rw [hw, opcode_fieldsWord]
    rw [ho]
    exact ⟨u, hu, hw⟩
  · rintro ⟨u, hu, hw⟩
    obtain ⟨i, hi⟩ := exists_rowOf_opcode hu
    rw [← hi] at hu hw
    exact ⟨_, decode_of_hits ((hits_iff_fieldsWord (rowOf_mem i) hu w).mpr hw)⟩

/-- Settles O1: each listed word is evaluated. -/
theorem specWordsDecode : Obligations.SpecWordsDecode := by
  unfold Obligations.SpecWordsDecode
  decide

/-- Settles O5: the value of a command word is the sum of its fields. -/
theorem assemblerWords : Obligations.AssemblerWords := by
  intro d a b p g h n m
  have hn : ∀ k, n k = (fregBits k).toNat := fun k => by cases k <;> rfl
  have hm : ∀ k, m k = (pregBit k).toNat := fun k => by cases k <;> rfl
  simp [encode, commandWord_toNat, hn, hm]

end Sys2Proof
end

section
/-! SUPPORT. The block's step on a pending command, and `DEC.LOSS`, which reads the codec state only. -/

namespace Sys2Proof.Machine

/-- A pending command whose completion is due is executed (R84, R105, R271). -/
theorem step_block {s : State} {i : Instr} (hb : s.csr.busy = true) (hd : s.delay = 0 ∨ s.host.program = [])
    (hi : decode s.cmdReg = .ok i) : step s = exec i s := by
  have hm : s.blockMoves = true := by simpa [State.blockMoves, hb] using hd
  rw [step, if_pos hm, blockTurn, hi]

/-- Settles O6: a command's word decodes to the command, and `withFetchWord` makes it due. -/
theorem stepExecutesThePendingCommand : Obligations.StepExecutesThePendingCommand := by
  refine ⟨fun s i hb hd hi => step_block hb hd hi, fun s i => step_block rfl (.inl rfl) ?_⟩
  rw [withFetchWord_cmdReg, Nat.mod_eq_of_lt (encode i).isLt, BitVec.ofNat_toNat, BitVec.setWidth_eq]
  exact decode_encode i

/-- `DEC` with the loss bit is the concealment, whatever the payload operand (R107, R137). -/
theorem exec_decLoss (fd : FReg) (pa : PReg) (s : State) :
    exec (.dec fd pa true) s = .next (concealWith s (Config.codecCore s.params) fd) :=
  congrArg Host.Outcome.next (if_pos (.inl rfl))

/-- Settles O23: the concealment reads the codec state only. -/
theorem decLossIgnoresThePayload : Obligations.DecLossIgnoresThePayload := by
  intro fd pa pb s a bs k n
  refine ⟨by rw [exec_decLoss, exec_decLoss], fun t ht => ?_⟩
  rw [exec_decLoss] at ht ⊢
  obtain rfl := Host.Outcome.next.inj ht
  cases k <;> rfl

end Sys2Proof.Machine
end

section
/-! SUPPORT. The codec adapter: what `ENC` leaves in its payload buffer, and the outcomes of `DEC` in the order of its tests. -/

namespace Sys2Proof.Machine

/-! ### `ENC` -/

/-- A frame register as a whole, from its samples (R14). -/
theorem frame_eq_sample (s : State) (k : FReg) : s.frame k = fun i : Fin s.params.frameLen => s.sample k i := rfl

/-- Where `ENC` ended `OK`, the bytes of its buffer from the first one on are the encoded bytes (R135). -/
theorem byteAt_encodeOk (s : State) (pd : PReg) (c : Config.CodecState) {b : List Byte} {j : Nat} (h : j < b.length) :
    (encodeOk s pd c b).byteAt (payloadBase pd + j) = b[j] :=
  byteAt_writeBytes_of_getElem? s _ (by rw [List.getElem?_append_left h, List.getElem?_eq_getElem h])

/-- `ENC` writes no byte outside its buffer (R135). -/
theorem byteAt_encodeOk_other (s : State) {pd : PReg} (c : Config.CodecState) {b : List Byte}
    (hb : b.length ≤ Config.bufCap) {a : Nat} (h : a < payloadBase pd ∨ payloadBase pd + Config.bufCap ≤ a) :
    (encodeOk s pd c b).byteAt a = s.byteAt a :=
  byteAt_writeBytes_other s (by rwa [encoded_length hb])

/-- The length register holds every length that fits the buffer (R46, R135). -/
theorem encodeOk_plen (s : State) (pd : PReg) (c : Config.CodecState) {b : List Byte} (hb : b.length ≤ Config.bufCap) :
    (encodeOk s pd c b).plen pd = b.length := by
  have hcsr : (encodeOk s pd c b).csr.plen pd = BitVec.ofNat 10 b.length := by cases pd <;> rfl
  have : Config.bufCap < 2 ^ 10 := by decide
  rw [State.plen, hcsr, BitVec.toNat_ofNat, Nat.mod_eq_of_lt (by omega)]

/-- The valid content of the buffer after `ENC` is what the core encoded (R53, R135). -/
theorem encodeOk_payload (s : State) (pd : PReg) (c : Config.CodecState) {b : List Byte} (hb : b.length ≤ Config.bufCap) :
    (encodeOk s pd c b).payload pd = b := by
  rw [State.payload, encodeOk_plen s pd c hb]
  exact bytesAt_eq_of_byteAt fun _ h => byteAt_encodeOk s pd c h

/-- What a core encodes fits the payload buffers (R6, R131). -/
theorem payload_le_bufCap {p : Config.Params} (hp : paramsWellFormed p = true) (b : Config.Payload p) :
    b.val.length ≤ Config.bufCap := by
  have hmax : p.maxPayload ≤ 500 := (params_bounds hp).2.2.2
  have hb : b.val.length ≤ p.maxPayload := b.property
  rw [Config.bufCap]; omega

/-! ### `DEC` -/

/-- The valid content of a payload buffer, from its bytes (R53). -/
theorem payload_eq_map_byteAt (s : State) (k : PReg) :
    s.payload k = (List.range (s.csr.plen k).toNat).map (fun j => s.byteAt (payloadBase k + j)) := rfl

/-- A delivered frame fills its destination register (R20, R137). -/
theorem decodeOk_frame_length (s : State) (fd : FReg) (c : Config.CodecState) (f : Config.Frame s.params) :
    ((decodeOk s fd c f).frames.get fd).length = s.params.frameLen :=
  (congrArg List.length (frames_get_set_same s.frames fd (List.ofFn f))).trans List.length_ofFn

section Decode

variable {s : State} (core : Config.CodecCore s.params) (fd : FReg) {pa : PReg} {loss : Bool}

/-- The loss bit or an empty payload takes the concealment path (R137). -/
theorem decodeWith_conceal (h : loss = true ∨ s.plen pa = 0) : decodeWith s core fd pa loss = concealWith s core fd :=
  if_pos h

/-- A payload above the limit only reports it (R137). -/
theorem decodeWith_tooBig (h0 : s.plen pa ≠ 0) (h : s.params.maxPayload < s.plen pa) :
    decodeWith s core fd pa false = s.raise .tooBig := by
  rw [decodeWith, if_neg (by simp [h0]), if_pos h]

/-- A payload of legal length is given to the core, and the outcome is the core's (R137). -/
theorem decodeWith_decode_cases (h0 : s.plen pa ≠ 0) (h : s.plen pa ≤ s.params.maxPayload) :
    (∃ c f, core.dec s.codecState (s.payload pa) = (c, some f) ∧ decodeWith s core fd pa false = decodeOk s fd c f) ∨
    (∃ c, core.dec s.codecState (s.payload pa) = (c, none) ∧ decodeWith s core fd pa false = decodeErr s c) := by
  rw [decodeWith, if_neg (by simp [h0]), if_neg (Nat.not_lt.mpr h)]
  rcases core.dec s.codecState (s.payload pa) with ⟨c, _ | f⟩
  · exact .inr ⟨c, rfl, rfl⟩
  · exact .inl ⟨c, f, rfl, rfl⟩

end Decode

/-- A length register is 0 as a number of bytes exactly when it is 0 as a word. -/
theorem plen_eq_zero_iff (s : State) (k : PReg) : s.plen k = 0 ↔ s.csr.plen k = 0 := by
  rw [State.plen, ← BitVec.toNat_inj]
  rfl

end Sys2Proof.Machine
end

section
/-! The obligations of 40_codec.md. -/

namespace Sys2Proof.Machine

/-- Settles O21: the two results of the core, the encoded bytes read back from the buffer. -/
theorem encodeResult : Obligations.EncodeResult := by
  intro pd fa s hp
  refine ⟨rfl, fun core => ?_⟩
  obtain ⟨c, b, h, e⟩ | ⟨c, h, e⟩ := encodeWith_cases s core pd fa
  · rw [frame_eq_sample] at h
    rw [h, e]
    exact ⟨_, rfl, fun _ hj => byteAt_encodeOk s pd c hj, fun _ ha => byteAt_encodeOk_other s c (payload_le_bufCap hp b) ha⟩
  · rw [frame_eq_sample] at h
    rw [h, e]
    rfl

/-- Settles O22: concealment, rejection, and the two results of the core, each with its own test of the length. -/
theorem decodeResult : Obligations.DecodeResult := by
  intro fd pa loss s
  refine ⟨rfl, fun core => ⟨fun h => ?_, ?_, ?_⟩⟩
  · rw [← plen_eq_zero_iff] at h
    rw [decodeWith_conceal core fd h]
    rfl
  · rintro rfl hl h0
    rw [decodeWith_tooBig core fd (mt (plen_eq_zero_iff s pa).mp h0) hl]
    rfl
  · rintro rfl hl h0
    obtain ⟨c, f, h, e⟩ | ⟨c, h, e⟩ := decodeWith_decode_cases core fd (mt (plen_eq_zero_iff s pa).mp h0) hl
    all_goals
      rw [payload_eq_map_byteAt] at h
      rw [h, e]
      rfl

/-- Settles O24: `DEC` gives the core the very bytes that it encoded, so by the round trip the core delivers a frame. -/
theorem encodeThenDecodeCompletes : Obligations.EncodeThenDecodeCompletes := by
  intro pd fa fd s core c b hp hround henc hne
  have hb := payload_le_bufCap hp b
  have hplen := encodeOk_plen s pd c hb
  have hpayload := encodeOk_payload s pd c hb
  refine ⟨by rw [encodeWith, henc], ?_⟩
  obtain ⟨d, f, -, e⟩ | ⟨d, h, -⟩ := decodeWith_decode_cases (s := encodeOk s pd c b.val) (pa := pd) core fd
    (by rw [hplen]; exact mt List.eq_nil_of_length_eq_zero hne) (by rw [hplen]; exact b.property)
  · rw [e]
    exact ⟨rfl, decodeOk_frame_length _ fd d f⟩
  · have hsome := hround s.codecState c c (s.frame fa) b henc hne
    rw [hpayload] at h
    have hdec : core.dec c b.val = (d, none) := h
    rw [hdec] at hsome
    cases hsome

end Sys2Proof.Machine
end

section
/-! SUPPORT. The arithmetic of `mixcore`: the range of the weighted sum and the samples at the corner gains (41_mix.md). They
serve `SIDETONE` too, which mixes with the same core. -/

namespace Sys2Proof.Machine

/-- A sample times a gain of at most 1.0, with 15 fraction bits (R151, R152). -/
theorem sample_mul_gain_range (x : Sample) {g : Nat} (hg : g ≤ 0x8000) :
    -2 ^ 30 ≤ x.toInt * g ∧ x.toInt * g ≤ 2 ^ 30 - 32768 := by
  obtain ⟨hlo, hhi⟩ := sample_range x
  constructor <;> nlinarith

/-- The exact weighted sum needs 32 signed bits (R152). -/
theorem weightedSum_range (a b : Sample) {ga gb : Nat} (ha : ga ≤ 0x8000) (hb : gb ≤ 0x8000) :
    -2 ^ 31 ≤ weightedSum a b ga gb ∧ weightedSum a b ga gb ≤ 2 ^ 31 - 65536 := by
  obtain ⟨halo, hahi⟩ := sample_mul_gain_range a ha
  obtain ⟨hblo, hbhi⟩ := sample_mul_gain_range b hb
  unfold weightedSum
  omega

/-- Bounds that are multiples of the divisor bound the quotient (R16). -/
theorem trunc0_range {p lo hi : Int} {q : Nat} (hq : 0 < q) (hlo : lo * q ≤ p) (hhi : p ≤ hi * q) :
    lo ≤ trunc0 p q ∧ trunc0 p q ≤ hi := by
  have hq' : (q : Int) ≠ 0 := by omega
  rw [trunc0_eq_tdiv]
  constructor
  · calc lo = (lo * q).tdiv q := (Int.mul_tdiv_cancel lo hq').symm
      _ ≤ p.tdiv q := Int.tdiv_le_tdiv (by omega) hlo
  · calc p.tdiv q ≤ (hi * q).tdiv q := Int.tdiv_le_tdiv (by omega) hhi
      _ = hi := Int.mul_tdiv_cancel hi hq'

/-- A weighted sum that is a whole number of units is divided exactly, and only clamped (R152). -/
theorem mixSample_toInt_of_exact {a b : Sample} {ga gb : Nat} {v : Int} (h : weightedSum a b ga gb = v * 32768) :
    (mixSample a b ga gb).toInt = sat16 v := by
  rw [mixSample_toInt, h, Int.mul_tdiv_cancel v (by decide)]

/-- Unity and zero gain copy the first sample, −32768 included (R152). -/
theorem mixSample_unity_zero (a b : Sample) : mixSample a b 0x8000 0 = a := by
  obtain ⟨hlo, hhi⟩ := sample_range a
  apply BitVec.eq_of_toInt_eq
  rw [mixSample_toInt_of_exact (v := a.toInt) (by simp [weightedSum]), sat16_of_range hlo hhi]

/-- Two zero gains give silence (R152). -/
theorem mixSample_zero_zero (a b : Sample) : mixSample a b 0 0 = 0 := by
  apply BitVec.eq_of_toInt_eq
  rw [mixSample_toInt_of_exact (v := 0) (by simp [weightedSum])]
  rfl

/-- Two unity gains give the saturating sum (R152). -/
theorem mixSample_unity_unity (a b : Sample) : (mixSample a b 0x8000 0x8000).toInt = sat16 (a.toInt + b.toInt) :=
  mixSample_toInt_of_exact (by simp [weightedSum, Int.add_mul])

/-- A gain stored as 0x8000 or more is 1.0 (R151). -/
theorem clampUnit_of_ge {g : BitVec 16} (h : 0x8000 ≤ g.toNat) : clampUnit g = 0x8000 := Nat.min_eq_right h

@[simp] theorem clampUnit_zero : clampUnit 0 = 0 := rfl

/-- A sample that `MIX` has written, from the old values of both sources, whichever register is the destination (R152). -/
theorem sample_exec_mix {fd fa fb : FReg} {s t : State} {i : Nat} (h : exec (.mix fd fa fb) s = .next t)
    (hi : i < s.params.frameLen) :
    t.sample fd i = mixSample (s.sample fa i) (s.sample fb i) (clampUnit s.csr.gainA) (clampUnit s.csr.gainB) := by
  obtain rfl := Host.Outcome.next.inj h
  exact sample_setFrame_same s fd _ hi

end Sys2Proof.Machine
end

section
/-! The obligations of 41_mix.md. -/

namespace Sys2Proof.Machine

/-- Settles O11: the destination is the list of mixed samples, and the value of each is `mixSample_toInt`. -/
theorem mixResult : Obligations.MixResult := by
  intro fd fa fb s
  exact ⟨List.ofFn (mixcore (s.frame fa) (s.frame fb) (clampUnit s.csr.gainA) (clampUnit s.csr.gainB)), rfl,
    List.length_ofFn, fun i hi => ⟨_, ofFn_getElem? _ hi, mixSample_toInt ..⟩⟩

/-- Settles O12: each sample is a `mixSample` of the clamped gains, which has a lemma for each corner. -/
theorem mixCorners : Obligations.MixCorners := by
  intro fd fa fb s t i h hi
  rw [sample_exec_mix h hi]
  refine ⟨fun hA hB => ?_, fun hA hB => ?_, fun hA hB => ?_⟩
  · rw [clampUnit_of_ge hA, hB, clampUnit_zero, mixSample_unity_zero]
  · rw [hA, hB, clampUnit_zero, mixSample_zero_zero]
  · rw [clampUnit_of_ge hA, clampUnit_of_ge hB, mixSample_unity_unity, sat16]

/-- Settles O13: both bounds of the sum are whole multiples of 32768, so they bound the quotient. -/
theorem mixAccumulatorFits : Obligations.MixAccumulatorFits := by
  intro a b ga gb ha hb
  obtain ⟨hlo, hhi⟩ := weightedSum_range a b ha hb
  exact ⟨hlo, hhi, trunc0_range (by decide) hlo hhi⟩

end Sys2Proof.Machine
end

section
/-! SUPPORT. The curve of the limiter over the integers (42_limit.md, R161) and the samples that `LIMIT` writes. -/

namespace Sys2Proof.Machine

/-- The curve is odd: it reads only the magnitude, and gives the sign back (R161). -/
theorem lim_neg (x : Int) (t : Nat) : lim (-x) t = -lim x t := by
  by_cases h : x.natAbs ≤ t
  · rw [lim_of_le h, lim_of_le (by rwa [Int.natAbs_neg])]
  · have hgt : t < x.natAbs := not_le.mp h
    rw [lim_of_gt hgt, lim_of_gt (by rwa [Int.natAbs_neg]), Int.natAbs_neg, Int.sign_neg, neg_mul]

/-- Without the sign the curve is the lower of its two lines, which meet at the knee (R161). -/
theorem lim_of_nonneg {x : Int} (hx : 0 ≤ x) (t : Nat) : lim x t = min x (t + (x - t) / 4) := by
  obtain ⟨h, e⟩ | ⟨h, e⟩ | ⟨h, _⟩ := lim_cases x t
  · rw [e]; omega
  · rw [e]; omega
  · omega

/-- The curve never inverts two values: both of its lines rise, and it is odd (R161). -/
theorem lim_mono (t : Nat) : Monotone (lim · t) := by
  refine monotone_of_odd_of_monotoneOn_nonneg (lim_neg · t) fun x hx y hy hxy => ?_
  simp only [lim_of_nonneg hx, lim_of_nonneg hy]
  exact min_le_min hxy (by omega)

/-- A peak of at most `m`, not below the knee, leaves the limiter at most a quarter of the way from the knee to `m` (R161). -/
theorem abs_lim_le {x : Int} {t m : Nat} (htm : t ≤ m) (hx : |x| ≤ m) : 4 * |lim x t| ≤ 3 * t + m := by
  rw [Int.abs_eq_natAbs] at hx ⊢
  rcases lim_cases x t with h | h | h <;> omega

theorem knee_le (t : BitVec 15) : t.toNat ≤ 32767 := Nat.le_of_lt_succ t.isLt

theorem abs_sample_le (x : Sample) : |x.toInt| ≤ (32768 : Nat) := by
  obtain ⟨hlo, hhi⟩ := sample_range x
  exact abs_le.mpr ⟨hlo, by omega⟩

/-- A sample of magnitude at most the knee is unchanged (R161). -/
theorem limSample_of_le {x : Sample} {t : BitVec 15} (h : |x.toInt| ≤ t.toNat) : limSample x t.toNat = x := by
  apply BitVec.eq_of_toInt_eq
  rw [limSample_toInt x (knee_le t), lim_of_le]
  rwa [Int.abs_eq_natAbs, Nat.cast_le] at h

/-- The value of a sample above the knee, with the magnitude written as in R161. -/
theorem limSample_toInt_of_gt {x : Sample} {t : BitVec 15} (h : |x.toInt| > t.toNat) :
    (limSample x t.toNat).toInt = x.toInt.sign * (t.toNat + (|x.toInt| - t.toNat) / 4) := by
  rw [Int.abs_eq_natAbs, gt_iff_lt, Nat.cast_lt] at h
  rw [limSample_toInt x (knee_le t), lim_of_gt h, Int.abs_eq_natAbs, Nat.cast_add, Int.natCast_div, Nat.cast_sub h.le,
    Nat.cast_ofNat]

/-- A sample that `LIMIT` has written with `LIM_EN` 1, from the old value of the source (R162). -/
theorem sample_exec_limit {fd fa : FReg} {s t : State} {i : Nat} (hen : s.csr.limEn = true)
    (h : exec (.limit fd fa) s = .next t) (hi : i < s.params.frameLen) :
    t.sample fd i = limSample (s.sample fa i) s.csr.knee.toNat := by
  obtain rfl := Host.Outcome.next.inj h
  exact (sample_setFrame_same s fd _ hi).trans (if_pos hen)

end Sys2Proof.Machine
end

section
/-! The obligations of 42_limit.md. -/

namespace Sys2Proof.Machine

/-- Settles O14: the destination is the list of copied or limited samples, and the value of a limited one is
`limSample_of_le` or `limSample_toInt_of_gt`. -/
theorem limitResult : Obligations.LimitResult := by
  intro fd fa s
  refine ⟨List.ofFn fun i : Fin s.params.frameLen =>
      if s.csr.limEn then limSample (s.frame fa i) s.csr.knee.toNat else s.frame fa i,
    rfl, List.length_ofFn, fun i hi => ⟨_, ofFn_getElem? _ hi, fun hoff => ?_, fun hon hle => ?_, fun hon hgt => ?_⟩⟩
  · rw [if_neg (by simp [hoff])]; rfl
  · rw [if_pos hon]; exact limSample_of_le hle
  · rw [if_pos hon]; exact limSample_toInt_of_gt hgt

/-- Settles O15: four times an output magnitude is at most three knees and the peak (`abs_lim_le`), and the reset knee is below
0.95·32767. -/
theorem limiterPeakBound : Obligations.LimiterPeakBound := by
  intro fd fa s t m hen hknee hm hpeak h i hi
  have hbound := abs_lim_le (t := 31128) hm.le (hpeak i hi)
  rw [sample_exec_limit hen h hi, hknee, limSample_toInt _ (knee_le _)]
  show 400 * |lim (s.sample fa i).toInt 31128| ≤ _
  omega

/-- Settles O16: the curve over the integers is monotone and odd, and bounded by `abs_lim_le` at the largest magnitude of a
sample. -/
theorem limiterCurveShape : Obligations.LimiterCurveShape := by
  intro t
  have ht := knee_le t
  simp only [limSample_toInt _ ht]
  refine ⟨fun x y hxy => lim_mono _ hxy, fun x y hxy => ?_, fun x => ?_, fun x hx => ?_⟩
  · rw [hxy, lim_neg]
  · have hbound := abs_lim_le (ht.trans (by decide)) (abs_sample_le x)
    omega
  · rw [hx, lim_of_gt (by omega), Int.sign_eq_one_of_pos (by omega)]
    omega

end Sys2Proof.Machine
end

section
/-! SUPPORT. The blend of `SIDETONE`: `mixcore` with gains that sum to 1.0, so that no sample leaves the range of the two it is
blended from (43_sidetone.md, R172). -/

namespace Sys2Proof.Machine

/-- A sum with gains that add up to 1.0 stays between the extreme samples, each at full gain (R172). -/
theorem weightedSum_complement_range (a b : Sample) {g : Nat} (hg : g ≤ 0x8000) :
    -32768 * 32768 ≤ weightedSum a b (0x8000 - g) g ∧ weightedSum a b (0x8000 - g) g ≤ 32767 * 32768 := by
  obtain ⟨halo, hahi⟩ := sample_range a
  obtain ⟨hblo, hbhi⟩ := sample_range b
  rw [weightedSum, Nat.cast_sub hg]
  constructor <;> push_cast <;> nlinarith

/-- With gains that add up to 1.0 the clamp of `mixcore` never acts (R172). -/
theorem mixSample_complement_toInt (a b : Sample) {g : Nat} (hg : g ≤ 0x8000) :
    (mixSample a b (0x8000 - g) g).toInt = (weightedSum a b (0x8000 - g) g).tdiv 32768 := by
  obtain ⟨hlo, hhi⟩ := weightedSum_complement_range a b hg
  obtain ⟨hqlo, hqhi⟩ := trunc0_range (q := 32768) (by decide) hlo hhi
  rw [trunc0_eq_tdiv] at hqlo hqhi
  rw [mixSample_toInt]
  exact sat16_of_range hqlo hqhi

/-- Zero and unity gain copy the second sample (R152). -/
theorem mixSample_zero_unity (a b : Sample) : mixSample a b 0 0x8000 = b := by
  obtain ⟨hlo, hhi⟩ := sample_range b
  apply BitVec.eq_of_toInt_eq
  rw [mixSample_toInt_of_exact (v := b.toInt) (by simp [weightedSum]), sat16_of_range hlo hhi]

/-- A sample blended with itself is unchanged, whatever the level (R172). -/
theorem mixSample_complement_self (a : Sample) {g : Nat} (hg : g ≤ 0x8000) : mixSample a a (0x8000 - g) g = a := by
  obtain ⟨hlo, hhi⟩ := sample_range a
  have hsum : weightedSum a a (0x8000 - g) g = a.toInt * 32768 := by
    rw [weightedSum, ← mul_add, ← Nat.cast_add, Nat.sub_add_cancel hg, Nat.cast_ofNat]
  apply BitVec.eq_of_toInt_eq
  rw [mixSample_toInt_of_exact hsum, sat16_of_range hlo hhi]

section Frame

variable {p : Config.Params} (mic incoming : Config.Frame p)

/-- With the gate off, or the level 0, the incoming frame is copied (R172). -/
theorem sidetoneFrame_of_inactive {lv : Nat} {gate : Bool} (h : gate = false ∨ lv = 0) :
    sidetoneFrame mic incoming lv gate = incoming := by
  refine if_neg fun ⟨hgate, hlv⟩ => ?_
  rcases h with hoff | hzero
  · exact Bool.false_ne_true (hoff.symm.trans hgate)
  · exact hlv.ne' hzero

/-- With the gate active each sample is a blend; at level 0 too, where blend and copy agree (R172). -/
theorem sidetoneFrame_of_gate (lv : Nat) (i : Fin p.frameLen) :
    sidetoneFrame mic incoming lv true i = mixSample (incoming i) (mic i) (0x8000 - lv) lv := by
  rcases Nat.eq_zero_or_pos lv with rfl | hlv
  · rw [sidetoneFrame_of_inactive mic incoming (.inr rfl), Nat.sub_zero, mixSample_unity_zero]
  · rw [sidetoneFrame, if_pos ⟨rfl, hlv⟩, mixcore]

end Frame

/-- A sample that `SIDETONE` has written with the gate active, from the old values of both sources, whichever register is the
destination (R172). -/
theorem sample_exec_sidetone {fd fmic fin : FReg} {s t : State} {i : Nat} (h : exec (.sidetone fd fmic fin true) s = .next t)
    (hi : i < s.params.frameLen) :
    t.sample fd i =
      mixSample (s.sample fin i) (s.sample fmic i) (0x8000 - clampUnit s.csr.level) (clampUnit s.csr.level) := by
  obtain rfl := Host.Outcome.next.inj h
  exact (sample_setFrame_same s fd _ hi).trans (sidetoneFrame_of_gate ..)

end Sys2Proof.Machine
end

section
/-! The obligations of 43_sidetone.md. -/

namespace Sys2Proof.Machine

/-- Settles O17: the destination is the list of copied or blended samples, and the value of a blended one is
`mixSample_toInt`. -/
theorem sidetoneResult : Obligations.SidetoneResult := by
  intro fd fmic fin gate s
  refine ⟨List.ofFn (sidetoneFrame (s.frame fmic) (s.frame fin) (clampUnit s.csr.level) gate), rfl, List.length_ofFn,
    fun i hi => ⟨_, ofFn_getElem? _ hi, fun hoff => ?_, fun hgate _ => ?_⟩⟩
  · have hinactive : gate = false ∨ clampUnit s.csr.level = 0 := hoff.imp_right fun h => by rw [h, clampUnit_zero]
    rw [sidetoneFrame_of_inactive _ _ hinactive, State.frame]
  · rw [hgate, sidetoneFrame_of_gate, mixSample_toInt]
    rfl

/-- Settles O18: each sample is a `mixSample` of gains that add up to 1.0, which has a lemma for each corner. -/
theorem sidetoneCorners : Obligations.SidetoneCorners := by
  intro fd fmic fin s t i h hi
  rw [sample_exec_sidetone h hi]
  have hlevel := clampUnit_le s.csr.level
  refine ⟨mixSample_complement_toInt _ _ hlevel, fun hfull => ?_, fun hsame => ?_⟩
  · rw [clampUnit_of_ge hfull, Nat.sub_self, mixSample_zero_unity]
  · rw [hsame, mixSample_complement_self _ hlevel]

end Sys2Proof.Machine
end

section
/-! SUPPORT. The arithmetic of `RMS`: its root and its sum in the library's notation, and the level of a constant frame
(44_rms.md, R181). -/

namespace Sys2Proof.Machine

/-- The root of R17 is the library's. -/
theorem isqrt_eq_sqrt (m : Nat) : isqrt m = Nat.sqrt m := Nat.eq_sqrt.mpr (isqrt_spec m)

/-- The sum of R181 as a sum of squared magnitudes, from `sumSquares_eq_sum` over the integers. -/
theorem sumSquares_eq_sum_natAbs_sq (f : Nat → Sample) (n : Nat) :
    sumSquares f n = ∑ i ∈ Finset.range n, (f i).toInt.natAbs ^ 2 := by
  apply Nat.cast_injective (R := Int)
  rw [sumSquares_eq_sum, Nat.cast_sum]
  exact Finset.sum_congr rfl fun i _ => by rw [Nat.cast_pow, Int.natCast_natAbs, sq_abs, pow_two]

/-- The meter's result fits `RMS_OUT` (R181, R182). -/
theorem rmsLevel_toNat (f : Nat → Sample) (n : Nat) : (BitVec.ofNat 16 (rmsLevel f n)).toNat = rmsLevel f n :=
  Nat.mod_eq_of_lt (Nat.lt_of_le_of_lt (rmsLevel_le f n) (by decide))

/-- The squares of a constant frame add up to a whole multiple of the frame's length (R181). -/
theorem sumSquares_const {f : Nat → Sample} {n : Nat} {c : Sample} (hc : ∀ i, i < n → f i = c) :
    sumSquares f n = n * (c.toInt.natAbs * c.toInt.natAbs) := by
  have hterm : ∀ i ∈ Finset.range n, (f i).toInt.natAbs ^ 2 = c.toInt.natAbs * c.toInt.natAbs := fun i hi => by
    rw [hc i (Finset.mem_range.mp hi), Nat.pow_two]
  rw [sumSquares_eq_sum_natAbs_sq, Finset.sum_congr rfl hterm, Finset.sum_const, Finset.card_range, smul_eq_mul]

/-- The level of a constant frame is the constant's magnitude (R181). -/
theorem rmsLevel_const {f : Nat → Sample} {n : Nat} {c : Sample} (hn : 1 ≤ n) (hc : ∀ i, i < n → f i = c) :
    rmsLevel f n = c.toInt.natAbs := by
  rw [rmsLevel, sumSquares_const hc, Nat.mul_div_cancel_left _ hn, isqrt_eq_sqrt, Nat.sqrt_eq]

end Sys2Proof.Machine
end

section
/-! The obligations of 44_rms.md. -/

namespace Sys2Proof.Machine

/-- Settles O19: the level fits the register, and `isqrt_spec` says both inequalities of the mean square. -/
theorem rmsResult : Obligations.RmsResult := by
  intro fa s
  refine ⟨BitVec.ofNat 16 (rmsLevel (s.sample fa) s.params.frameLen), rfl, ?_⟩
  rw [rmsLevel_toNat, ← sumSquares_eq_sum_natAbs_sq]
  exact ⟨rmsLevel_le .., isqrt_spec _⟩

/-- Settles O20: the mean square of a constant frame is the constant's square, whose root is the magnitude. -/
theorem rmsOfConstantFrame : Obligations.RmsOfConstantFrame := by
  intro fa s t c hn hc h
  obtain rfl := Host.Outcome.next.inj h
  exact (rmsLevel_toNat ..).trans (rmsLevel_const hn hc)

end Sys2Proof.Machine
end

section
/-! SUPPORT. The packet formatter: the outcomes of `PKT_SEND` and `PKT_RECV` by their tests, the fields of a datagram as numbers,
what one datagram leaves behind when it is sent and when it is received, and the loss estimator on a stream of them
(45_packet.md). -/

namespace Sys2Proof.Machine

/-! ### `PKT_SEND` and `PKT_RECV` by their tests -/

section Outcomes

variable {s : State} {k : PReg} (ptt call : Bool)

/-- An oversized request only reports it (R196). -/
theorem exec_pktSend_tooBig (h : s.params.maxPayload < s.plen k) :
    exec (.pktSend k ptt call) s = .next (s.raise .tooBig) :=
  congrArg Host.Outcome.next (if_pos h)

/-- A request within the size limit with the link up is sent (R195). -/
theorem exec_pktSend_linkUp (h : s.plen k ≤ s.params.maxPayload) (hl : s.inputLinkUp = true) :
    exec (.pktSend k ptt call) s = .next (packetSent s k ptt call) :=
  congrArg Host.Outcome.next ((if_neg (Nat.not_lt.mpr h)).trans (if_pos hl))

/-- A request within the size limit with the link down fails (R196). -/
theorem exec_pktSend_linkDown (h : s.plen k ≤ s.params.maxPayload) (hl : s.inputLinkUp = false) :
    exec (.pktSend k ptt call) s = .next (packetFailed s k ptt call) :=
  congrArg Host.Outcome.next ((if_neg (Nat.not_lt.mpr h)).trans (if_neg (by rw [hl]; exact Bool.false_ne_true)))

/-- A datagram shorter than a header only reports it (R204). -/
theorem exec_pktRecv_short (h : s.csr.rxdLen.toNat < Config.hdrLen) : exec (.pktRecv k) s = .next (s.raise .short) :=
  congrArg Host.Outcome.next (if_pos h)

/-- An impossible size field only reports it (R204). -/
theorem exec_pktRecv_badSize (h : Config.hdrLen ≤ s.csr.rxdLen.toNat)
    (hbad : s.params.maxPayload < s.rxSize ∨ s.csr.rxdLen.toNat < Config.hdrLen + s.rxSize) :
    exec (.pktRecv k) s = .next (s.raise .badSize) :=
  congrArg Host.Outcome.next ((if_neg (Nat.not_lt.mpr h)).trans (if_pos hbad))

/-- Any other datagram is received (R203). -/
theorem exec_pktRecv_accepted (h : rxAccepted s) : exec (.pktRecv k) s = .next (packetReceived s k) := by
  obtain ⟨hlen, hmax, hfits⟩ := h
  exact congrArg Host.Outcome.next ((if_neg (Nat.not_lt.mpr hlen)).trans (if_neg (by omega)))

/-- `PKT_SEND` completes `OK` only when it sent a datagram (R196). -/
theorem packetSent_of_ok {t : State} (he : exec (.pktSend k ptt call) s = .next t) (hok : t.csr.err = .ok) :
    s.plen k ≤ s.params.maxPayload ∧ t = packetSent s k ptt call := by
  obtain ⟨-, e⟩ | ⟨hl, -, e⟩ | ⟨-, -, e⟩ := execPktSend_cases s k ptt call <;>
    obtain rfl := Host.Outcome.next.inj (e.symm.trans he)
  · cases hok
  · exact ⟨hl, rfl⟩
  · cases hok

/-- `PKT_RECV` completes `OK` only when it accepted the datagram (R204). -/
theorem packetReceived_of_ok {t : State} (he : exec (.pktRecv k) s = .next t) (hok : t.csr.err = .ok) :
    t = packetReceived s k := by
  obtain ⟨-, e⟩ | ⟨-, -, e⟩ | ⟨-, e⟩ := execPktRecv_cases s k <;>
    obtain rfl := Host.Outcome.next.inj (e.symm.trans he)
  · cases hok
  · cases hok
  · rfl

end Outcomes

/-! ### The datagram's fields as numbers -/

/-- The bytes of `LE16` add up to its value (R18). -/
theorem le16_bytes_toNat (v : BitVec 16) :
    (v.extractLsb' 0 8).toNat + 2 ^ 8 * (v.extractLsb' 8 8).toNat = v.toNat :=
  (u16le_toNat ..).symm.trans (congrArg BitVec.toNat (u16le_le16 v))

/-- The bytes of `LE32` add up to its value (R18). -/
theorem le32_bytes_toNat (v : Word) :
    (v.extractLsb' 0 8).toNat + 2 ^ 8 * (v.extractLsb' 8 8).toNat + 2 ^ 16 * (v.extractLsb' 16 8).toNat +
      2 ^ 24 * (v.extractLsb' 24 8).toNat = v.toNat :=
  (u32le_toNat ..).symm.trans (congrArg BitVec.toNat (u32le_le32 v))

/-- The flags byte is `M0 + 2 × M1` (R193). -/
theorem flagsByte_toNat (ptt call : Bool) : (flagsByte ptt call).toNat = ptt.toNat + 2 * call.toNat := by
  cases ptt <;> cases call <;> rfl

/-- A receiver reads the sender's `ptt` in bit 0 of the flags byte (R193). -/
theorem flagsByte_ptt (ptt call : Bool) : (flagsByte ptt call).getLsbD 0 = ptt := by cases ptt <;> cases call <;> rfl

/-- A receiver reads the sender's `call` in bit 1 of the flags byte (R193). -/
theorem flagsByte_call (ptt call : Bool) : (flagsByte ptt call).getLsbD 1 = call := by cases ptt <;> cases call <;> rfl

/-- A range that was just written, read back. -/
theorem bytesAt_writeBytes (s : State) (a : Nat) (bs : List Byte) : (s.writeBytes a bs).bytesAt a bs.length = bs :=
  bytesAt_eq_of_byteAt fun _ h => byteAt_writeBytes_at s a h

/-- A datagram in memory: its header fields as numbers, then its payload (R191). -/
theorem writeBytes_serializePacket_fields (s : State) (a : Nat) (seq ts : Word) (ptt call : Bool) {p : List Byte}
    (hp : p.length < 2 ^ 16) :
    let t := s.writeBytes a (serializePacket seq ts ptt call p)
    let b := fun j => (t.byteAt (a + j)).toNat
    b 0 + 2 ^ 8 * b 1 + 2 ^ 16 * b 2 + 2 ^ 24 * b 3 = seq.toNat ∧
    b 4 + 2 ^ 8 * b 5 + 2 ^ 16 * b 6 + 2 ^ 24 * b 7 = ts.toNat ∧
    b 8 + 2 ^ 8 * b 9 = p.length ∧ b 10 = ptt.toNat + 2 * call.toNat ∧ b 11 = 0 ∧
    ∀ (j : Nat) (h : j < p.length), t.byteAt (a + 12 + j) = p[j] := by
  intro t b
  have hbyte : ∀ {j x}, (serializePacket seq ts ptt call p)[j]? = some x → b j = x.toNat :=
    fun h => congrArg BitVec.toNat (byteAt_writeBytes_of_getElem? s a h)
  obtain ⟨⟨h0, h1, h2, h3⟩, ⟨h4, h5, h6, h7⟩, h8, h9, h10, h11⟩ := serializePacket_header seq ts ptt call p
  refine ⟨?_, ?_, ?_, ?_, hbyte h11, fun j h => ?_⟩
  · rw [hbyte h0, hbyte h1, hbyte h2, hbyte h3, le32_bytes_toNat]
  · rw [hbyte h4, hbyte h5, hbyte h6, hbyte h7, le32_bytes_toNat]
  · rw [hbyte h8, hbyte h9, le16_bytes_toNat, BitVec.toNat_ofNat, Nat.mod_eq_of_lt hp]
  · rw [hbyte h10, flagsByte_toNat]
  · rw [Nat.add_assoc]
    exact byteAt_writeBytes_of_getElem? s a
      (List.getElem?_eq_some_iff.mpr ⟨_, serializePacket_payload seq ts ptt call p h⟩)

/-! ### What `PKT_RECV` reads and counts, as numbers -/

/-- The size field of the received datagram from its bytes (R191). -/
theorem rxSize_eq_bytes (s : State) : s.rxSize = (s.rxd 8).toNat + 2 ^ 8 * (s.rxd 9).toNat := u16le_toNat ..

/-- The sequence field of the received datagram from its bytes (R191). -/
theorem rxSeq_eq_bytes (s : State) :
    s.rxSeq = BitVec.ofNat 32 ((s.rxd 0).toNat + 2 ^ 8 * (s.rxd 1).toNat + 2 ^ 16 * (s.rxd 2).toNat +
      2 ^ 24 * (s.rxd 3).toNat) :=
  calc s.rxSeq = BitVec.ofNat 32 s.rxSeq.toNat := by rw [BitVec.ofNat_toNat, BitVec.setWidth_eq]
    _ = _ := congrArg (BitVec.ofNat 32) (u32le_toNat ..)

/-- The loss percentage as the word it is stored in (R208). -/
theorem losspct_eq_ofNat (lost recv : Word) :
    losspct lost recv = BitVec.ofNat 16
      (if recv.toNat + lost.toNat = 0 then 0 else lost.toNat * 25600 / (recv.toNat + lost.toNat)) := by
  rw [losspct]
  split <;> rfl

/-- The gap is added only when the number is above the expected one (R207). -/
theorem add_lossGap (lost last seq : Word) (haveLast : Bool) :
    lost + lossGap haveLast last seq =
      if haveLast = true ∧ (last + 1).toNat < seq.toNat then lost + (seq - (last + 1)) else lost := by
  rw [lossGap, apply_ite (lost + ·)]
  exact if_congr Iff.rfl rfl (BitVec.add_zero lost)

/-- The first datagram counts no loss (R207). -/
theorem lossGap_first (last seq : Word) : lossGap false last seq = 0 := if_neg fun h => Bool.false_ne_true h.1

/-- Bit 0 of a byte is the parity of its value. -/
theorem byte_getLsbD_zero (b : Byte) : b.getLsbD 0 = decide (b.toNat % 2 = 1) := by
  rw [BitVec.getLsbD, Nat.testBit_zero]

/-- Bit 1 of a byte is the parity of half its value. -/
theorem byte_getLsbD_one (b : Byte) : b.getLsbD 1 = decide (b.toNat / 2 % 2 = 1) := by
  rw [BitVec.getLsbD, Nat.testBit_succ, Nat.testBit_zero]

/-- The registers after an accepted datagram, each by its value (R203, R206 to R209). -/
theorem packetReceived_csr_values (s : State) (pd : PReg) :
    let recv := s.csr.pktsRecv + 1
    let lost := if s.csr.haveLast = true ∧ (s.csr.rxLastSeq + 1).toNat < s.rxSeq.toNat
      then s.csr.pktsLost + (s.rxSeq - (s.csr.rxLastSeq + 1)) else s.csr.pktsLost
    (packetReceived s pd).csr = { s.csr.setPlen pd (BitVec.ofNat 10 s.rxSize) with
      pktsRecv := recv, bytesRecv := s.csr.bytesRecv + BitVec.ofNat 32 s.csr.rxdLen.toNat
      pktsLost := lost, rxLastSeq := s.rxSeq, haveLast := true
      lossPct := BitVec.ofNat 16 (if recv.toNat + lost.toNat = 0 then 0
        else lost.toNat * 25600 / (recv.toNat + lost.toNat))
      rxPtt := decide ((s.rxd 10).toNat % 2 = 1), rxCall := decide ((s.rxd 10).toNat / 2 % 2 = 1)
      busy := false, err := .ok } := by
  intro recv lost
  rw [packetReceived_csr, Csrs.received, add_lossGap, losspct_eq_ofNat, byte_getLsbD_zero, byte_getLsbD_one,
    BitVec.ofNat_toNat]
  cases pd <;> rfl

/-! ### One datagram, sent and received -/

/-- A payload of legal length makes a datagram that the length registers can hold (R6, R47). -/
theorem datagram_length_lt {p : Config.Params} (hp : paramsWellFormed p = true) {n : Nat} (hn : n ≤ p.maxPayload) :
    Config.hdrLen + n < 2 ^ 10 := by
  obtain ⟨-, -, -, hmax⟩ := params_bounds hp
  rw [Config.hdrLen]
  omega

/-- A sent datagram is `TXD` up to `TXD_LEN` (R47, R54, R195). -/
theorem packetSent_txd {s : State} {pa : PReg} (hp : paramsWellFormed s.params = true) (hl : s.plen pa ≤ s.params.maxPayload)
    (ptt call : Bool) :
    (packetSent s pa ptt call).bytesAt txdBase (packetSent s pa ptt call).csr.txdLen.toNat =
      serializePacket s.csr.txSeq s.inputTimeUs ptt call (s.payload pa) := by
  have hlen : (packetSent s pa ptt call).csr.txdLen.toNat =
      (serializePacket s.csr.txSeq s.inputTimeUs ptt call (s.payload pa)).length := by
    rw [serializePacket_length, payload_length]
    exact Nat.mod_eq_of_lt (datagram_length_lt hp hl)
  rw [hlen]
  exact bytesAt_writeBytes s.portsSampled txdBase _

/-- The flags after a datagram was accepted are the two low bits of its flags byte (R193, R203). -/
theorem packetReceived_flags (s : State) (pd : PReg) :
    (packetReceived s pd).csr.rxPtt = (s.rxd 10).getLsbD 0 ∧ (packetReceived s pd).csr.rxCall = (s.rxd 10).getLsbD 1 := by
  rw [packetReceived_csr]
  simp only [setPlen_csr_rxPtt, setPlen_csr_rxCall]
  exact ⟨rfl, rfl⟩

/-- The payload delivered is the one behind the header in `RXD` (R203, R209). -/
theorem packetReceived_payload {s : State} {pd : PReg} (h : s.rxSize < 2 ^ 10) :
    (packetReceived s pd).payload pd = s.bytesAt (rxdBase + Config.hdrLen) s.rxSize := by
  have hplen : (packetReceived s pd).plen pd = (s.bytesAt (rxdBase + Config.hdrLen) s.rxSize).length := by
    rw [bytesAt_length, State.plen, packetReceived_csr]
    exact (congrArg BitVec.toNat (plen_setPlen_same ..)).trans (Nat.mod_eq_of_lt h)
  rw [State.payload, hplen]
  exact bytesAt_writeBytes s (payloadBase pd) _

/-- An accepted datagram that is not behind the expected number moves received plus lost by as much as the last number
(R207). -/
theorem packetReceived_conserves {s : State} (pd : PReg) (hlast : s.csr.haveLast = true)
    (hseq : (s.csr.rxLastSeq + 1).toNat ≤ s.rxSeq.toNat) :
    (packetReceived s pd).csr.pktsRecv + (packetReceived s pd).csr.pktsLost - (packetReceived s pd).csr.rxLastSeq =
      s.csr.pktsRecv + s.csr.pktsLost - s.csr.rxLastSeq := by
  obtain ⟨hrecv, hlost, hnum, -⟩ := packetReceived_stats s pd
  rw [hrecv, hlost, hnum, add_lossGap]
  split
  · ring
  · next h =>
    have hexp : s.rxSeq = s.csr.rxLastSeq + 1 :=
      BitVec.eq_of_toNat_eq (Nat.le_antisymm (Nat.not_lt.mp fun hlt => h ⟨hlast, hlt⟩) hseq)
    rw [hexp]
    ring

/-! ### A sender's datagrams, presented and received -/

/-- The state after a sender's datagram with number `n` was presented and accepted. -/
def State.datagramReceived (s : State) (n ts : Word) (ptt call : Bool) (p : List Byte) (pd : PReg) : State :=
  packetReceived (s.presented (serializePacket n ts ptt call p)) pd

section Datagrams

variable (pd : PReg) (ts : Word) (ptt call : Bool) {p : List Byte}

/-- The first of a sender's datagrams is received when its payload fits the configuration (R203). -/
theorem receiveAll_cons {s : State} (hp : paramsWellFormed s.params = true) (hl : p.length ≤ s.params.maxPayload)
    (n : Word) (ds : List (List Byte)) :
    receiveAll pd (serializePacket n ts ptt call p :: ds) s =
      receiveAll pd ds (s.datagramReceived n ts ptt call p pd) := by
  rw [receiveAll, exec_pktRecv_presented pd s n ts ptt call p hp hl]
  rfl

/-- What the estimator does with a sender's datagram: one more received, the gap added, its number the last one (R207). -/
theorem datagramReceived_stats {s : State} (hp : paramsWellFormed s.params = true) (hl : p.length ≤ s.params.maxPayload)
    (n : Word) :
    let t := s.datagramReceived n ts ptt call p pd
    t.csr.pktsRecv = s.csr.pktsRecv + 1 ∧
    t.csr.pktsLost = s.csr.pktsLost + lossGap s.csr.haveLast s.csr.rxLastSeq n ∧
    t.csr.rxLastSeq = n ∧ t.csr.haveLast = true := by
  obtain ⟨-, hseq, -⟩ := presented_serializePacket s n ts ptt call p hp hl
  have hstats := packetReceived_stats (s.presented (serializePacket n ts ptt call p)) pd
  rwa [hseq] at hstats

/-- A sender's datagram is delivered with its payload and its two flags (R193, R203, R209). -/
theorem datagramReceived_delivers {s : State} (hp : paramsWellFormed s.params = true) (hl : p.length ≤ s.params.maxPayload)
    (n : Word) :
    let t := s.datagramReceived n ts ptt call p pd
    t.payload pd = p ∧ t.csr.rxPtt = ptt ∧ t.csr.rxCall = call := by
  obtain ⟨-, -, hsize, hflags, hdata⟩ := presented_serializePacket s n ts ptt call p hp hl
  obtain ⟨hptt, hcall⟩ := packetReceived_flags (s.presented (serializePacket n ts ptt call p)) pd
  have hshort := Nat.lt_of_add_left_lt (datagram_length_lt hp hl)
  refine ⟨(packetReceived_payload (by rwa [hsize])).trans (by rw [hsize, hdata]), hptt.trans ?_, hcall.trans ?_⟩
  · rw [hflags, flagsByte_ptt]
  · rw [hflags, flagsByte_call]

/-- A sender's datagram above the last number keeps received plus lost less the last number (R207). -/
theorem datagramReceived_conserves {s : State} (hp : paramsWellFormed s.params = true)
    (hl : p.length ≤ s.params.maxPayload) {n : Word} (hlast : s.csr.haveLast = true)
    (hlt : s.csr.rxLastSeq.toNat < n.toNat) :
    let t := s.datagramReceived n ts ptt call p pd
    t.csr.pktsRecv + t.csr.pktsLost - t.csr.rxLastSeq = s.csr.pktsRecv + s.csr.pktsLost - s.csr.rxLastSeq := by
  obtain ⟨-, hseq, -⟩ := presented_serializePacket s n ts ptt call p hp hl
  refine packetReceived_conserves (s := s.presented (serializePacket n ts ptt call p)) pd hlast ?_
  rw [hseq, presented_csr]
  bv_omega

/-- A stream above the last number is received whole: it ends at its last number and keeps received plus lost less the last
number. -/
theorem receiveAll_increasing (qs : List Word) {s : State} (hp : paramsWellFormed s.params = true)
    (hl : p.length ≤ s.params.maxPayload) (hlast : s.csr.haveLast = true)
    (hinc : (s.csr.rxLastSeq :: qs).Pairwise (fun x y => x.toNat < y.toNat)) :
    let t := receiveAll pd (qs.map (fun n => serializePacket n ts ptt call p)) s
    t.csr.pktsRecv = s.csr.pktsRecv + BitVec.ofNat 32 qs.length ∧
    t.csr.rxLastSeq = (s.csr.rxLastSeq :: qs).getLast (List.cons_ne_nil _ _) ∧
    t.csr.pktsRecv + t.csr.pktsLost - t.csr.rxLastSeq = s.csr.pktsRecv + s.csr.pktsLost - s.csr.rxLastSeq := by
  induction qs generalizing s with
  | nil => exact ⟨(BitVec.add_zero _).symm, rfl, rfl⟩
  | cons n qs ih =>
    obtain ⟨habove, hinc⟩ := List.pairwise_cons.mp hinc
    obtain ⟨hrecv, -, hnum, hhave⟩ := datagramReceived_stats pd ts ptt call hp hl n
    have hcons := datagramReceived_conserves pd ts ptt call hp hl hlast (habove n List.mem_cons_self)
    rw [← hnum] at hinc
    obtain ⟨ihRecv, ihNum, ihCons⟩ := ih (s := s.datagramReceived n ts ptt call p pd) hp hl hhave hinc
    rw [List.map_cons, receiveAll_cons pd ts ptt call hp hl, List.getLast_cons_cons]
    refine ⟨?_, ?_, ihCons.trans hcons⟩
    · rw [ihRecv, hrecv, List.length_cons, BitVec.ofNat_add, BitVec.add_assoc, BitVec.add_comm 1]
      rfl
    · rw [ihNum]
      simp only [hnum]

end Datagrams

end Sys2Proof.Machine
end

section
/-! The obligations of 45_packet.md. -/

namespace Sys2Proof.Machine

/-- Settles O25: the cleared registers, field by field. -/
theorem pktInitResult : Obligations.PktInitResult := fun _ => rfl

/-- Settles O26: the cleared registers, field by field. -/
theorem statsClrResult : Obligations.StatsClrResult := fun _ => rfl

/-- Settles O27: the memory is the old one with the datagram written to `TXD`, and a datagram in memory reads as
`writeBytes_serializePacket_fields` says. -/
theorem pktSendResult : Obligations.PktSendResult := by
  intro pa ptt call s
  refine ⟨fun h => exec_pktSend_tooBig ptt call h, fun hle => ?_⟩
  have hlen : (s.payload pa).length = s.plen pa := payload_length s pa
  have hshort : (s.payload pa).length < 2 ^ 16 := by
    have : s.plen pa < 2 ^ 10 := (s.csr.plen pa).isLt
    omega
  obtain ⟨hseq, htime, hsize, hflags, hzero, hpayload⟩ :=
    writeBytes_serializePacket_fields s txdBase s.csr.txSeq s.inputTimeUs ptt call hshort
  have hannounced := bytesAt_writeBytes s txdBase (serializePacket s.csr.txSeq s.inputTimeUs ptt call (s.payload pa))
  rw [serializePacket_length, hlen] at hannounced
  refine ⟨(packetBuilt s pa ptt call).mem,
    ⟨hseq, htime, hsize.trans hlen, hflags, hzero, fun j hj => ?_, fun a ha => ?_⟩, fun hup => ?_, fun hdown => ?_⟩
  · rw [← hlen] at hj
    exact (hpayload j hj).trans (bytesAt_getElem ..)
  · refine byteAt_writeBytes_other s (ha.imp_right fun h => ?_)
    rw [serializePacket_length, hlen, ← Nat.add_assoc]
    exact h
  · exact (exec_pktSend_linkUp ptt call hle hup).trans
      (congrArg (fun d => Host.Outcome.next { packetSent s pa ptt call with log := .txStrobe d :: s.log }) hannounced.symm)
  · exact exec_pktSend_linkDown ptt call hle hdown

/-- Settles O28: the two rejections by their tests; an accepted datagram gives the registers of `packetReceived_csr_values`
and writes its payload and no other byte. -/
theorem pktRecvResult : Obligations.PktRecvResult := by
  intro pd s rxd len es seq recv lost
  have hes : s.rxSize = es := rxSize_eq_bytes s
  have hseq : s.rxSeq = seq := rxSeq_eq_bytes s
  refine ⟨exec_pktRecv_short, fun hlen hbad => exec_pktRecv_badSize hlen (hes ▸ hbad), fun hfits hmax => ?_⟩
  have haccept : rxAccepted s := ⟨Nat.le_of_add_right_le hfits, hes ▸ hmax, hes ▸ hfits⟩
  have hcsr := packetReceived_csr_values s pd
  rw [hseq, hes] at hcsr
  have hdata : (s.bytesAt (rxdBase + Config.hdrLen) s.rxSize).length = es := (bytesAt_length ..).trans hes
  refine ⟨(packetReceived s pd).mem, ?_, fun j hj => ?_, fun a ha => ?_⟩
  · exact (exec_pktRecv_accepted haccept).trans
      (congrArg (fun c => Host.Outcome.next { packetReceived s pd with csr := c }) hcsr)
  · rw [← hdata] at hj
    exact (byteAt_writeBytes_at s (payloadBase pd) hj).trans (bytesAt_getElem ..)
  · exact byteAt_writeBytes_other s (by rwa [hdata])

/-- Settles O29: the percentage is the quotient of `losspct_toNat`, and lost is at most the sum. -/
theorem lossPercentIsTheFloor : Obligations.LossPercentIsTheFloor := by
  intro lost recv
  rw [losspct_toNat]
  refine ⟨fun h => if_pos h, ?_, fun h => ⟨Nat.div_mul_le_self .., ?_⟩⟩
  · exact Nat.div_le_of_le_mul (Nat.mul_le_mul_right _ (Nat.le_add_left ..))
  · rw [Nat.mul_comm (_ + 1)]
    exact Nat.lt_mul_div_succ _ h

/-- Settles O30: an accepting `PKT_RECV` is `packetReceived`, which conserves the count. -/
theorem inOrderDatagramConservesTheCount : Obligations.InOrderDatagramConservesTheCount := by
  intro pd s t he hok hlast hseq
  obtain rfl := packetReceived_of_ok he hok
  obtain ⟨-, -, hnum, -⟩ := packetReceived_stats s pd
  rw [hnum] at hseq
  exact packetReceived_conserves pd hlast hseq

/-- Settles O31: the first datagram sets the last number and counts no loss; the others conserve the count. -/
theorem lossEstimatorExactOnIncreasingStreams : Obligations.LossEstimatorExactOnIncreasingStreams := by
  intro pd s q qs ts ptt call p hp hl hfirst hrecv0 hlost0 hinc
  obtain ⟨hrecv, hlost, hnum, hhave⟩ := datagramReceived_stats pd ts ptt call hp hl q
  rw [← hnum] at hinc
  obtain ⟨hcount, hend, hcons⟩ :=
    receiveAll_increasing pd ts ptt call qs (s := s.datagramReceived q ts ptt call p pd) hp hl hhave hinc
  rw [hlost, hnum, hrecv, hrecv0, hlost0, hfirst, lossGap_first] at hcons
  rw [hrecv, hrecv0] at hcount
  rw [List.map_cons, receiveAll_cons pd ts ptt call hp hl]
  refine ⟨?_, ?_, ?_⟩
  · rw [hcount, Nat.add_comm, BitVec.ofNat_add]
    rfl
  · rw [hend]
    simp only [hnum]
  · rw [sub_eq_iff_eq_add.mp hcons]
    ring

/-- Settles O32: `TXD` holds the announced datagram, and a presented datagram delivers what its sender put in. -/
theorem sentDatagramIsReceivedUnchanged : Obligations.SentDatagramIsReceivedUnchanged := by
  intro pa pd ptt call s t r hp hparams he hok
  obtain ⟨hl, rfl⟩ := packetSent_of_ok ptt call he hok
  have hwf : paramsWellFormed r.params = true := hparams ▸ hp
  have hfits : (s.payload pa).length ≤ r.params.maxPayload := by rw [payload_length, hparams]; exact hl
  obtain ⟨-, -, hnum, hhave⟩ := datagramReceived_stats pd s.inputTimeUs ptt call hwf hfits s.csr.txSeq
  obtain ⟨hpayload, hptt, hcall⟩ := datagramReceived_delivers pd s.inputTimeUs ptt call hwf hfits s.csr.txSeq
  exact ⟨_, r.datagramReceived s.csr.txSeq s.inputTimeUs ptt call (s.payload pa) pd, rfl,
    (packetSent_txd hp hl ptt call).symm, exec_pktRecv_presented pd r _ _ _ _ _ hwf hfits, rfl,
    hpayload, hnum, hptt, hcall, hhave⟩

end Sys2Proof.Machine
end

section
/-! SUPPORT. The report of a completion (60_exceptions.md): the code, its sticky flag and the counter it counts; every command
reports the one code that its cause gives; an illegal word only reports it; every step answers a next state. -/

namespace Sys2Proof.Machine

/-! ### The sticky flags -/

/-- A code other than `OK` has a flag of its own: bit `c` of `ERRFLAGS`, which is kept without its bit 0 (R28, R230). -/
theorem errFlagOf_eq_twoPow {c : CompletionCode} (h : c ≠ .ok) :
    1 ≤ codeNumber c ∧ codeNumber c ≤ 6 ∧ errFlagOf c = BitVec.twoPow 6 (codeNumber c - 1) := by
  cases c with
  | ok => exact absurd rfl h
  | illegal | tooBig | short | badSize | codec | link => decide

/-- `OK` has no flag (R28). -/
@[simp] theorem errFlagOf_ok : errFlagOf .ok = 0#6 := rfl

/-! ### What is reported -/

/-- `t` reports over `s` that a command completed with code `c`: `BUSY` is cleared, the code is in `ERR` and its flag is set
(R27, R28, R244), a codec error or a send failure is counted once, and a codec error is counted for nothing else (R43 to R45). -/
structure State.Reports (s : State) (c : CompletionCode) (t : State) : Prop where
  busy       : t.csr.busy = false
  err        : t.csr.err = c
  errFlags   : t.csr.errFlags = s.csr.errFlags ||| errFlagOf c
  codecError : c = .codec → t.csr.encErrCnt + t.csr.decErrCnt = s.csr.encErrCnt + s.csr.decErrCnt + 1
  sendFailed : c = .link → t.csr.txFailCnt = s.csr.txFailCnt + 1
  codecKept  : c ≠ .codec → t.csr.encErrCnt = s.csr.encErrCnt ∧ t.csr.decErrCnt = s.csr.decErrCnt

/-- `done` after work that touched neither the flags nor the codec counters reports `OK` (R19). -/
theorem State.reports_done {s u : State} (hf : u.csr.errFlags = s.csr.errFlags) (he : u.csr.encErrCnt = s.csr.encErrCnt)
    (hd : u.csr.decErrCnt = s.csr.decErrCnt) : s.Reports .ok u.done where
  busy := rfl
  err := rfl
  errFlags := by simp [hf]
  codecError := nofun
  sendFailed := nofun
  codecKept _ := ⟨he, hd⟩

section Rules

variable (s : State)

/-- `raise` alone reports every error that counts nothing (R244). -/
theorem State.reports_raise {c : CompletionCode} (hc : c ≠ .codec) (hl : c ≠ .link) : s.Reports c (s.raise c) where
  busy := rfl
  err := rfl
  errFlags := rfl
  codecError h := absurd h hc
  sendFailed h := absurd h hl
  codecKept _ := ⟨rfl, rfl⟩

theorem State.reports_encodeOk (pd : PReg) (c : Config.CodecState) (b : List Byte) :
    s.Reports .ok (encodeOk s pd c b) :=
  reports_done (setPlen_csr_errFlags s.csr pd _) (setPlen_csr_encErrCnt s.csr pd _) (setPlen_csr_decErrCnt s.csr pd _)

theorem State.reports_encodeErr (c : Config.CodecState) : s.Reports .codec (encodeErr s c) where
  busy := rfl
  err := rfl
  errFlags := rfl
  codecError _ := add_right_comm s.csr.encErrCnt 1 s.csr.decErrCnt
  sendFailed := nofun
  codecKept h := absurd rfl h

theorem State.reports_decodeOk (fd : FReg) (c : Config.CodecState) (f : Config.Frame s.params) :
    s.Reports .ok (decodeOk s fd c f) :=
  reports_done rfl rfl rfl

theorem State.reports_decodeErr (c : Config.CodecState) : s.Reports .codec (decodeErr s c) where
  busy := rfl
  err := rfl
  errFlags := rfl
  codecError _ := (add_assoc s.csr.encErrCnt s.csr.decErrCnt 1).symm
  sendFailed := nofun
  codecKept h := absurd rfl h

theorem State.reports_packetSent (pa : PReg) (ptt call : Bool) : s.Reports .ok (packetSent s pa ptt call) :=
  reports_done rfl rfl rfl

theorem State.reports_packetFailed (pa : PReg) (ptt call : Bool) : s.Reports .link (packetFailed s pa ptt call) where
  busy := rfl
  err := rfl
  errFlags := rfl
  codecError := nofun
  sendFailed _ := rfl
  codecKept _ := ⟨rfl, rfl⟩

theorem State.reports_packetReceived (pd : PReg) : s.Reports .ok (packetReceived s pd) :=
  reports_done (setPlen_csr_errFlags (s.csr.received s.rxSeq (s.rxd 10)) pd _)
    (setPlen_csr_encErrCnt (s.csr.received s.rxSeq (s.rxd 10)) pd _)
    (setPlen_csr_decErrCnt (s.csr.received s.rxSeq (s.rxd 10)) pd _)

end Rules

/-! ### Every command -/

/-- The report of `ENC` is the core's result (R135). -/
theorem encodeWith_reports (s : State) (pd : PReg) (fa : FReg) :
    s.Reports (expectedCode (.enc pd fa) s) (encodeWith s (Config.codecCore s.params) pd fa) := by
  obtain ⟨c, b, hc, e⟩ | ⟨c, hc, e⟩ := encodeWith_cases s (Config.codecCore s.params) pd fa <;>
    rw [expectedCode, hc, e]
  · exact s.reports_encodeOk pd c b.val
  · exact s.reports_encodeErr c

/-- The report of `DEC`: concealment first, then the size limit, then the core's result (R137, R242). -/
theorem decodeWith_reports (s : State) (fd : FReg) (pa : PReg) (loss : Bool) :
    s.Reports (expectedCode (.dec fd pa loss) s) (decodeWith s (Config.codecCore s.params) fd pa loss) := by
  by_cases h : loss = true ∨ s.plen pa = 0
  · rw [expectedCode, if_pos h, decodeWith_conceal _ fd h]
    exact s.reports_decodeOk fd ..
  · obtain ⟨hloss, h0⟩ := not_or.mp h
    obtain rfl := Bool.eq_false_of_not_eq_true hloss
    rw [expectedCode, if_neg h]
    by_cases hbig : s.params.maxPayload < s.plen pa
    · rw [if_pos hbig, decodeWith_tooBig _ fd h0 hbig]
      exact s.reports_raise nofun nofun
    · rw [if_neg hbig]
      obtain ⟨c, f, hc, e⟩ | ⟨c, hc, e⟩ :=
        decodeWith_decode_cases (Config.codecCore s.params) fd h0 (Nat.le_of_not_lt hbig) <;> rw [hc, e]
      · exact s.reports_decodeOk fd c f
      · exact s.reports_decodeErr c

/-- The report of `PKT_SEND`: the size limit first, then the link (R195, R196, R242). -/
theorem execPktSend_reports (s : State) (pa : PReg) (ptt call : Bool) :
    ∃ t, execPktSend pa ptt call s = .next t ∧ s.Reports (expectedCode (.pktSend pa ptt call) s) t := by
  obtain ⟨h, e⟩ | ⟨h, hl, e⟩ | ⟨h, hl, e⟩ := execPktSend_cases s pa ptt call <;> refine ⟨_, e, ?_⟩
  · rw [expectedCode, if_pos h]
    exact s.reports_raise nofun nofun
  · rw [expectedCode, if_neg (Nat.not_lt.mpr h), hl]
    exact s.reports_packetSent pa ptt call
  · rw [expectedCode, if_neg (Nat.not_lt.mpr h), hl]
    exact s.reports_packetFailed pa ptt call

/-- The code `PKT_RECV` gives a datagram is that of the first test it fails (R203, R204, R242). -/
theorem execPktRecv_reports (s : State) (pd : PReg) :
    ∃ t, execPktRecv pd s = .next t ∧ s.Reports (expectedCode (.pktRecv pd) s) t := by
  have hhdr : Config.hdrLen = 12 := rfl
  obtain ⟨h, e⟩ | ⟨h, hbad, e⟩ | ⟨⟨h, hmax, hfits⟩, e⟩ := execPktRecv_cases s pd <;> refine ⟨_, e, ?_⟩
  · rw [expectedCode, if_pos (by omega)]
    exact s.reports_raise nofun nofun
  · rw [rxAccepted] at hbad
    rw [expectedCode, if_neg (by omega), if_pos (by omega)]
    exact s.reports_raise nofun nofun
  · rw [expectedCode, if_neg (by omega), if_neg (by omega)]
    exact s.reports_packetReceived pd

/-- Every command answers a next state, which reports the code that R230 and R242 give it. -/
theorem exec_reports (i : Instr) (s : State) : ∃ t, exec i s = .next t ∧ s.Reports (expectedCode i s) t := by
  cases i with
  | enc pd fa => exact ⟨_, rfl, encodeWith_reports s pd fa⟩
  | dec fd pa loss => exact ⟨_, rfl, decodeWith_reports s fd pa loss⟩
  | mix fd fa fb => exact ⟨_, rfl, State.reports_done rfl rfl rfl⟩
  | limit fd fa => exact ⟨_, rfl, State.reports_done rfl rfl rfl⟩
  | sidetone fd fmic fin gate => exact ⟨_, rfl, State.reports_done rfl rfl rfl⟩
  | rms fa => exact ⟨_, rfl, State.reports_done rfl rfl rfl⟩
  | pktInit => exact ⟨_, rfl, State.reports_done rfl rfl rfl⟩
  | pktSend pa ptt call => exact execPktSend_reports s pa ptt call
  | pktRecv pd => exact execPktRecv_reports s pd
  | statsClr => exact ⟨_, rfl, State.reports_done rfl rfl rfl⟩

/-! ### The block's step -/

/-- A word that is not well formed decodes to no command (R102, R106). -/
theorem decode_eq_error_of_not_wordWellFormed {w : Word} (h : wordWellFormed w = false) : ∃ e, decode w = .error e := by
  cases hd : decode w with
  | error e => exact ⟨e, rfl⟩
  | ok i =>
    have hwf : wordWellFormed w = true := (commandWordsAreTheWellFormedOnes w).mp ⟨i, hd⟩
    rw [h] at hwf
    cases hwf

/-- A pending word that is not well formed completes with `E_ILLEGAL` when its completion is due (R84, R232). -/
theorem step_illegal {s : State} (hm : s.blockMoves = true) (hw : wordWellFormed s.cmdReg = false) :
    step s = .next (s.raise .illegal) := by
  obtain ⟨e, he⟩ := decode_eq_error_of_not_wordWellFormed hw
  rw [step, if_pos hm, blockTurn, he]

/-- The block's turn answers a next state, whether `CMDREG` holds a command or not (R231). -/
theorem blockTurn_next (s : State) : ∃ t, blockTurn s = .next t := by
  rw [blockTurn]
  cases decode s.cmdReg with
  | ok i =>
    obtain ⟨t, ht, -⟩ := exec_reports i s
    exact ⟨t, ht⟩
  | error e => exact ⟨_, rfl⟩

/-- A step never stops: neither agent's turn ends in a fault or a refusal (R231, R246). -/
theorem step_next (s : State) : ∃ t, step s = .next t := by
  cases hm : s.blockMoves with
  | true =>
    rw [step, if_pos hm]
    exact blockTurn_next s
  | false => exact ⟨_, step_host hm⟩

end Sys2Proof.Machine
end

section
/-! The obligations of 60_exceptions.md. -/

namespace Sys2Proof.Machine

/-- Settles O7: the word decodes to no command, and `raise` of `E_ILLEGAL` sets the lowest stored flag. -/
theorem illegalWordOnlyReportsIt : Obligations.IllegalWordOnlyReportsIt := by
  intro s hb hd hw
  have hm : s.blockMoves = true := by simp [State.blockMoves, hb, hd]
  exact step_illegal hm hw

/-- Settles O9: every command reports its expected code, and a code other than `OK` has one flag. -/
theorem everyCommandCompletesWithItsCode : Obligations.EveryCommandCompletesWithItsCode := by
  intro i s
  obtain ⟨t, ht, hrep⟩ := exec_reports i s
  have hcode := hrep.err
  rw [← hcode] at hrep
  refine ⟨t, ht, hrep.busy, hcode, fun hok => ?_, fun hne => ?_, hrep.codecError, hrep.sendFailed, hrep.codecKept⟩
  · rw [hrep.errFlags, hok, errFlagOf_ok, BitVec.or_zero]
  · obtain ⟨h1, h6, hbit⟩ := errFlagOf_eq_twoPow hne
    exact ⟨_, h1, h6, rfl, by rw [hrep.errFlags, hbit]⟩

/-- Settles O10: by the results a command can have; the ones that end in another code are excluded, and the others are the old
state with the report. -/
theorem errorsArePrecise : Obligations.ErrorsArePrecise := by
  intro i s t h
  cases exec_completes h with
  | raised i s c => exact ⟨fun _ => rfl, by rintro rfl; rfl⟩
  | encodeFailed pd fa s c => exact ⟨nofun, fun _ => rfl⟩
  | decodeFailed fd pa loss s c => exact ⟨nofun, fun _ => rfl⟩
  | _ => exact ⟨nofun, nofun⟩

/-- Settles O8: each step answers a next state. -/
theorem runsNeverStop : Obligations.RunsNeverStop := by
  intro n
  induction n with
  | zero => exact fun _ => trivial
  | succ n ih =>
    intro s
    obtain ⟨t, ht⟩ := step_next s
    exact ⟨t, ht, ih t⟩

end Sys2Proof.Machine
end

section
/-! SUPPORT. A pending command on its way to its end: the block's turn ends it, and each turn of the host either abandons it or
brings it one transaction nearer (70_reset_and_hazards.md R260, R270 to R272). -/

namespace Sys2Proof.Machine

/-- The block's turn leaves the block idle, whether `CMDREG` holds a command or not (R232, R271). -/
theorem blockTurn_idle (s : State) : ∃ t, blockTurn s = .next t ∧ t.csr.busy = false := by
  rw [blockTurn]
  cases decode s.cmdReg with
  | ok i =>
    obtain ⟨t, ht, hrep⟩ := exec_reports i s
    exact ⟨t, ht, hrep.busy⟩
  | error e => exact ⟨_, rfl, rfl⟩

/-- The host's turn with an assertion of `rst` next (R260). -/
theorem hostTurn_rst {s : State} {r : List BusOp} (hp : s.host.program = .rst :: r) :
    hostTurn s = (s.consume r).resetBlock := by
  simp only [hostTurn, hp]

/-- When the host moves while a command is pending, the completion is not due and the host has a transaction left (R84). -/
theorem pending_of_blockMoves_eq_false {s : State} (hb : s.csr.busy = true) (hm : s.blockMoves = false) :
    s.delay ≠ 0 ∧ s.host.program ≠ [] := by
  simpa [State.blockMoves, hb] using hm

/-- A command still pending after a transaction of the host is one transaction nearer its end: no write of a busy block is
admitted, so none starts another delay (R273). -/
theorem hostTurn_delay {s : State} (hb : s.csr.busy = true) (hp : s.host.program ≠ [])
    (ht : (hostTurn s).csr.busy = true) : (hostTurn s).delay = s.delay - 1 := by
  obtain ⟨h, -⟩ | ⟨a, z, r, -, e⟩ | ⟨a, z, v, r, -, -, e⟩ | ⟨a, z, v, r, t, -, hw, -⟩ | ⟨r, -, -, e⟩ | ⟨r, -, h, -⟩ |
    ⟨r, -, e⟩ := hostTurn_cases s
  · exact absurd h hp
  · rw [e]; rfl
  · rw [e]; rfl
  · rw [memWrite_busy (s := s.consume r) hb] at hw
    cases hw
  · rw [e]; rfl
  · rw [hb] at h
    cases h
  · rw [e] at ht
    cases ht

/-- A step ends a pending command or lowers its delay, whoever moves (R272). -/
theorem step_pending {s : State} (hb : s.csr.busy = true) :
    ∃ t, step s = .next t ∧ (t.csr.busy = true → t.delay < s.delay) := by
  cases hm : s.blockMoves with
  | true =>
    obtain ⟨t, ht, hidle⟩ := blockTurn_idle s
    exact ⟨t, by rw [step, if_pos hm, ht], by simp [hidle]⟩
  | false =>
    obtain ⟨hd, hp⟩ := pending_of_blockMoves_eq_false hb hm
    exact ⟨_, step_host hm, fun ht => by rw [hostTurn_delay hb hp ht]; omega⟩

/-- A run takes its first step and goes on from there. -/
theorem run_succ_of_step {M : Host.Core} {s t : M.State} (h : M.step s = .next t) (n : Nat) :
    M.run (n + 1) s = M.run n t := by
  rw [Host.Core.run, h]

end Sys2Proof.Machine
end

section
/-! The obligations of 70_reset_and_hazards.md. -/

namespace Sys2Proof.Machine

/-- Settles O40: `STATUS` is read at any time and its bit 0 is `BUSY`; no other access of a busy block is admitted. -/
theorem busyAdmitsOnlyTheStatusRead : Obligations.BusyAdmitsOnlyTheStatusRead := by
  intro s a z v hb
  refine ⟨?_, memRead_busy hb, memWrite_busy hb a z v⟩
  rintro ⟨rfl, rfl⟩
  exact ⟨_, memRead_status s, (statusWord_getLsbD s.csr 0).trans hb⟩

/-- Settles O54, by strong induction on the delay: each step ends the command or lowers the delay. -/
theorem pendingCommandCompletes : Obligations.PendingCommandCompletes := by
  intro s hb
  induction hd : s.delay using Nat.strong_induction_on generalizing s with
  | _ d ih =>
    obtain ⟨t, hst, hlt⟩ := step_pending hb
    cases ht : t.csr.busy with
    | false => exact ⟨1, t, Nat.le_add_left 1 d, run_succ_of_step (M := core) hst 0, ht⟩
    | true =>
      have htd := hlt ht
      obtain ⟨n, u, hn, hrun, hu⟩ := ih t.delay (hd ▸ htd) t ht rfl
      exact ⟨n + 1, u, by omega, (run_succ_of_step (M := core) hst n).trans hrun, hu⟩

/-- Settles O35: the reset state of a legal configuration meets the invariant, and the standard configuration is legal. -/
theorem resetMeetsTheInvariant : Obligations.ResetMeetsTheInvariant :=
  ⟨resetWith_inv (by decide) 0, fun _ e hp => resetWith_inv hp e⟩

/-- Settles O36: a register read right after reset is `csrRead` of the reset registers, which compute. -/
theorem resetValues : Obligations.ResetValues := by
  intro p e s
  refine ⟨fun a ha => memRead_reset p e ?_, memRead_reset p e rfl, memRead_reset p e rfl, memRead_reset p e rfl, rfl, rfl⟩
  fin_cases ha <;> rfl

/-- Settles O53: the host moves, and the assertion of `rst` is `resetBlock`. -/
theorem rstTakesTheResetState : Obligations.RstTakesTheResetState := by
  intro s r h hp
  rw [step_host (blockMoves_eq_false h hp), hostTurn_rst hp]
  rfl

end Sys2Proof.Machine
end
